-- ==== Sys2Proof/Word.lean ====
section
/-! DEFINITION. The plain types of the TFG's data: words and bytes (spec/00_scope.md R12, R13), the word-addressed
memory of an engine (spec/20_memory.md R50, R51) and a finite binary64 number (spec/00_scope.md R15). The operations on
them stand under Sys2Proof/Machine. -/

namespace Sys2Proof

/-- A byte: the command byte of format C (spec/30_encoding.md R71). -/
abbrev Byte := BitVec 8

/-- A word of engine E32 (spec/00_scope.md R12). -/
abbrev Word32 := BitVec 32

/-- A word of engine E64, a handle, a `bits64` pattern (spec/00_scope.md R12, R15). -/
abbrev Word64 := BitVec 64

/-- One of the two data spaces ST32, ST64 (spec/20_memory.md R50): the words that hold a value, each with its word index.
An index that is not listed HOLDS NO VALUE (spec/10_state.md R33). The canonical form is `Mem.wf`. -/
abbrev Mem (w : Nat) := List (Nat × BitVec w)

/-- The canonical form of a space of `n` words: indices strictly rising, each of them below `n`. Nothing is said of the
values: an unlisted index holds no value, so no listed word can equal what an unlisted index holds. -/
abbrev Mem.wf {w : Nat} (n : Nat) (m : Mem w) : Prop :=
  m.Pairwise (fun a b => a.1 < b.1) ∧ ∀ c ∈ m, c.1 < n

/-- A finite, non-negative binary floating-point number `mant * 2 ^ exp` (spec/00_scope.md R15). In normal form `mant` is 0
(and then `exp` is 0) or has exactly 53 bits. The exponent is not bounded here: every value a rule computes is zero or a
normal binary64 number (spec/43_emit.md R153). -/
structure F64 where
  mant : Nat
  exp : Int
  deriving DecidableEq, Repr

/-- The rational number that a finite binary floating-point number stands for. -/
def F64.value (x : F64) : Rat := (x.mant : Rat) * (2 : Rat) ^ x.exp

end Sys2Proof
end

