-- ==== Sys2Proof/Syntax.lean ====
section
/-! DEFINITION. The instructions of the TFG: one constructor per row of spec/opcode_table.json. The host issues the first
three (spec/30_encoding.md R74, R75); the other seven are the internal micro-operations and the idle code
(spec/30_encoding.md R78). -/

namespace Sys2Proof

/-- The working register `sel` (spec/10_state.md R30): which engine the command in flight addresses. -/
inductive EngineSel where
  | e32
  | e64
  deriving DecidableEq, Repr

/-- The working register `phase` (spec/10_state.md R30, spec/40_draw.md R93). The unused codes are no phase
(spec/93_implementation_defined.md U7). -/
inductive Phase where
  | idle
  | seed
  | regen
  | emit
  deriving DecidableEq, Repr

/-- One constructor per row of the opcode table. -/
inductive Instr where
  /-- `DRAW32`, command byte 0x20: one draw from E32 (spec/40_draw.md R91). -/
  | draw32
  /-- `DRAW64`, command byte 0x40: one draw from E64 (spec/40_draw.md R92). -/
  | draw64
  /-- `RESERVED`: any other command byte `w` (spec/30_encoding.md R75). -/
  | reserved (w : Byte)
  /-- `SEED32`, uop 0001 (spec/41_seed.md R111). -/
  | seed32
  /-- `REGEN32`, uop 0010 (spec/42_regen.md R128). -/
  | regen32
  /-- `EMIT32`, uop 0011 (spec/43_emit.md R145). -/
  | emit32
  /-- `SEED64`, uop 1001 (spec/41_seed.md R112). -/
  | seed64
  /-- `REGEN64`, uop 1010 (spec/42_regen.md R129). -/
  | regen64
  /-- `EMIT64`, uop 1011 (spec/43_emit.md R145). -/
  | emit64
  /-- `IDLE`, uop s000: no command in flight; `sel` is the don't-care bit s (spec/30_encoding.md R78). -/
  | idle (sel : EngineSel)
  deriving DecidableEq, Repr

/-- The code of an instruction: an 8-bit command byte, which travels on the command port (spec/30_encoding.md R71), or a
4-bit micro-operation code, which never leaves the block (R78). They are two code spaces, not one. -/
inductive CodeWord where
  | command (b : Byte)
  | uop (c : BitVec 4)
  deriving DecidableEq, Repr

end Sys2Proof
end

