-- ==== Sys2Proof/WellFormed.lean ====
section
/-! DEFINITION. Which terms of `Instr` are instructions of the table: the width of a `RESERVED` command is neither 0x20 nor
0x40 (spec/30_encoding.md R74, R75). Every other constructor is well formed as it stands. -/

namespace Sys2Proof

/-- The width byte of a reserved command is none of the two supported ones (spec/30_encoding.md R75). -/
def reservedWidth (w : Byte) : Bool := w != 0x20#8 && w != 0x40#8

/-- The well-formedness check. -/
def Instr.wellFormed (i : Instr) : Bool :=
  match i with
  | .draw32 => true
  | .draw64 => true
  | .reserved w => reservedWidth w
  | .seed32 => true
  | .regen32 => true
  | .emit32 => true
  | .seed64 => true
  | .regen64 => true
  | .emit64 => true
  | .idle _ => true

/-- The host can issue it: it has a command byte (spec/30_encoding.md R74, R78). -/
def Instr.hostIssuable (i : Instr) : Bool :=
  match i with
  | .draw32 => true
  | .draw64 => true
  | .reserved _ => true
  | .seed32 => false
  | .regen32 => false
  | .emit32 => false
  | .seed64 => false
  | .regen64 => false
  | .emit64 => false
  | .idle _ => false

end Sys2Proof
end

