-- ==== Sys2Proof/Decode.lean ====
section
/-! DEFINITION. Decoding and encoding. The command byte: spec/30_encoding.md R71, R74, R75, R77 (total). The 4-bit
micro-operation code `uop = {sel, phase[2:0]}`: R78 (the unused codes are rejected by name). A program is the sequence of
its command bytes (R79). -/

namespace Sys2Proof

/-- Why a code is rejected. -/
inductive DecodeError where
  /-- uop codes 4..7 and 12..15: unused, never entered (spec/30_encoding.md R78). -/
  | unusedUop (c : BitVec 4)
  /-- No byte to read. -/
  | endOfInput
  deriving DecidableEq, Repr

/-- The opcode map of the command byte (spec/30_encoding.md R74): total (R77). -/
def decodeCommand (b : Byte) : Instr :=
  if b = 0x20#8 then .draw32
  else if b = 0x40#8 then .draw64
  else .reserved b

/-- The micro-operation of an engine in a phase (spec/30_encoding.md R78). -/
def uopInstr (sel : EngineSel) (ph : Phase) : Instr :=
  match ph, sel with
  | .idle, sel => .idle sel
  | .seed, .e32 => .seed32
  | .seed, .e64 => .seed64
  | .regen, .e32 => .regen32
  | .regen, .e64 => .regen64
  | .emit, .e32 => .emit32
  | .emit, .e64 => .emit64

/-- The `sel` bit, `uop[3]` (spec/30_encoding.md R78). -/
def decodeSel (c : BitVec 4) : EngineSel := if c.getLsbD 3 then .e64 else .e32

/-- The phase field, `uop[2:0]` (spec/30_encoding.md R78; IDLE=000, SEED=001, REGEN=010, EMIT=011). -/
def decodePhase (c : BitVec 4) : Option Phase :=
  match (c.extractLsb' 0 3).toNat with
  | 0 => some .idle
  | 1 => some .seed
  | 2 => some .regen
  | 3 => some .emit
  | _ => none

/-- The micro-operation code `uop = {sel, phase[2:0]}` (spec/30_encoding.md R78). -/
def decodeUop (c : BitVec 4) : Except DecodeError Instr :=
  match decodePhase c with
  | some ph => .ok (uopInstr (decodeSel c) ph)
  | none => .error (.unusedUop c)

/-- Decoding of either kind of code. -/
def decode (c : CodeWord) : Except DecodeError Instr :=
  match c with
  | .command b => .ok (decodeCommand b)
  | .uop c => decodeUop c

/-- The next command of a byte stream, with the rest of the stream (spec/30_encoding.md R71: the length is always one
byte). -/
def decodeBytes (bs : List Byte) : Except DecodeError (Instr × List Byte) :=
  match bs with
  | [] => .error .endOfInput
  | b :: rest => .ok (decodeCommand b, rest)

/-- A program's commands from its encoding (spec/30_encoding.md R79). -/
def decodeProgram (bs : List Byte) : List Instr := bs.map decodeCommand

/-- `phase[2:0]` (spec/30_encoding.md R78). -/
def encodePhase (ph : Phase) : BitVec 3 :=
  match ph with
  | .idle => 0b000#3
  | .seed => 0b001#3
  | .regen => 0b010#3
  | .emit => 0b011#3

/-- `sel` (spec/30_encoding.md R78). -/
def encodeSel (sel : EngineSel) : BitVec 1 :=
  match sel with
  | .e32 => 0#1
  | .e64 => 1#1

/-- `uop = {sel, phase[2:0]}` (spec/30_encoding.md R78). -/
def encodeUop (sel : EngineSel) (ph : Phase) : BitVec 4 := encodeSel sel ++ encodePhase ph

/-- The code of an instruction, from the tables of spec/30_encoding.md R74 and R78. -/
def encode (i : Instr) : CodeWord :=
  match i with
  | .draw32 => .command 0x20#8
  | .draw64 => .command 0x40#8
  | .reserved w => .command w
  | .seed32 => .uop 0b0001#4
  | .regen32 => .uop 0b0010#4
  | .emit32 => .uop 0b0011#4
  | .seed64 => .uop 0b1001#4
  | .regen64 => .uop 0b1010#4
  | .emit64 => .uop 0b1011#4
  | .idle sel => .uop (encodeUop sel .idle)

/-- The command byte of an instruction the host can issue (spec/30_encoding.md R74). -/
def commandByte (i : Instr) : Option Byte :=
  match encode i with
  | .command b => some b
  | .uop _ => none

/-- The code of a table row from its bits: a row of at most 4 bits is a micro-operation code, any other a command byte
(log 11: the table's two code spaces overlap as numbers). -/
def tableCode (nbits w : Nat) : CodeWord :=
  if nbits ≤ 4 then .uop (BitVec.ofNat 4 w) else .command (BitVec.ofNat 8 w)

/-- The instruction the decoder reads from the bits of a table row. -/
def decodeTableWord (nbits w : Nat) : Option Instr :=
  match decode (tableCode nbits w) with
  | .ok i => some i
  | .error _ => none

end Sys2Proof
end

