-- ==== Sys2Proof/Config.lean ====
section
/-! DEFINITION. What an implementation fixes: the parameter record of spec/00_scope.md R8, R9 and R11, the constraints of
R10, the defaults, and the one free value. Every function of the machine that uses a parameter takes the record as an
argument (R9); `exec` uses `Config.params`. -/

namespace Sys2Proof

/-- The parameters of one engine (spec/00_scope.md R8, R9). `w` is R8's `W`; `UMASK` and `LMASK` are functions of `r`. -/
structure EngineParams (w : Nat) where
  /-- `N`, the state length in words. -/
  n : Nat
  /-- `LAG`, or `LAG0 < LAG1 < LAG2`. -/
  lags : List Nat
  /-- `R`, the number of low bits taken from the next word. -/
  r : Nat
  /-- `MAG[0]`. -/
  mag0 : BitVec w
  /-- `MAG[1]`. -/
  mag1 : BitVec w
  /-- `TU`, right shift of tempering step 1. -/
  tu : Nat
  /-- `TS`, left shift of tempering step 2. -/
  ts : Nat
  /-- `TB`, mask of tempering step 2. -/
  tb : BitVec w
  /-- `TT`, left shift of tempering step 3. -/
  tt : Nat
  /-- `TC`, mask of tempering step 3. -/
  tc : BitVec w
  /-- `TL`, right shift of tempering step 4. -/
  tl : Nat
  /-- `SEEDMUL`. -/
  seedMul : BitVec w
  /-- `SEEDINC`. -/
  seedInc : BitVec w
  /-- `DEFSEED`. -/
  defSeed : BitVec w
  deriving DecidableEq, Repr

/-- `UMASK = 2^W - 2^R` (spec/00_scope.md R9, R10): the top `W - R` bits. -/
def EngineParams.umask {w : Nat} (p : EngineParams w) : BitVec w := BitVec.ofNat w (2 ^ w - 2 ^ p.r)

/-- `LMASK = 2^R - 1` (spec/00_scope.md R9, R10): the low `R` bits. -/
def EngineParams.lmask {w : Nat} (p : EngineParams w) : BitVec w := BitVec.ofNat w (2 ^ p.r - 1)

/-- The constraints of spec/00_scope.md R10 on the record of one engine. -/
abbrev EngineParams.wf {w : Nat} (p : EngineParams w) : Prop :=
  0 < p.r ∧ p.r < w ∧
  (∀ l ∈ p.lags, 0 < l ∧ l < p.n) ∧ p.lags.Pairwise (· < ·) ∧
  (1 ≤ p.tu ∧ p.tu < w) ∧ (1 ≤ p.ts ∧ p.ts < w) ∧ (1 ≤ p.tt ∧ p.tt < w) ∧ (1 ≤ p.tl ∧ p.tl < w) ∧
  p.defSeed ≠ 0#w

/-- `HANDLE_SRC` (spec/00_scope.md R11, spec/43_emit.md R149): which word is written back to the handle. -/
inductive HandleSrc where
  | tempered
  | untempered
  deriving DecidableEq, Repr

/-- `POST_SEED_CURSOR` (spec/00_scope.md R11, spec/41_seed.md R113): the cursor that seeding leaves, `N` or 0. -/
inductive PostSeedCursor where
  | stateLength
  | zero
  deriving DecidableEq, Repr

/-- The reading of "cast and divided" (spec/43_emit.md R151, spec/93_implementation_defined.md U12): convert both operands
and divide in binary64, or round the exact quotient once. -/
inductive CvtMode where
  | castThenDivide
  | roundQuotientOnce
  deriving DecidableEq, Repr

/-- The whole parameter record (spec/00_scope.md R9, R11). -/
structure Params where
  e32 : EngineParams 32
  e64 : EngineParams 64
  /-- `HAS_DEBUG`: the debug view of spec/60_exceptions.md R182 is present. -/
  hasDebug : Bool
  handleSrc : HandleSrc
  postSeedCursor : PostSeedCursor
  cvt : CvtMode
  deriving DecidableEq, Repr

/-- The record satisfies spec/00_scope.md R8 (the sizes and the numbers of lags LI fixes) and R10. -/
abbrev Params.wf (p : Params) : Prop :=
  p.e32.n = 624 ∧ p.e64.n = 312 ∧ p.e32.lags.length = 1 ∧ p.e64.lags.length = 3 ∧ p.e32.wf ∧ p.e64.wf

/-- The E32 defaults of spec/00_scope.md R9. PRESUMED (log 1). -/
def Config.e32 : EngineParams 32 where
  n := 624
  lags := [397]
  r := 31
  mag0 := 0x00000000#32
  mag1 := 0x9908B0DF#32
  tu := 11
  ts := 7
  tb := 0x9D2C5680#32
  tt := 15
  tc := 0xEFC60000#32
  tl := 18
  seedMul := 69069#32
  seedInc := 0#32
  defSeed := 4357#32

/-- The E64 defaults of spec/00_scope.md R9. PRESUMED (log 1). -/
def Config.e64 : EngineParams 64 where
  n := 312
  lags := [63, 151, 224]
  r := 31
  mag0 := 0x0000000000000000#64
  mag1 := 0xB3815B624FC82E2F#64
  tu := 26
  ts := 17
  tb := 0x599CFCBFCA660000#64
  tt := 33
  tc := 0xFFFAAFFE00000000#64
  tl := 39
  seedMul := 2862933555777941757#64
  seedInc := 1#64
  defSeed := 4357#64

/-- The configuration `exec` runs: the defaults of spec/00_scope.md R9 and R11 (log 1, 8, 13, 14, 15). -/
def Config.params : Params where
  e32 := Config.e32
  e64 := Config.e64
  hasDebug := false
  handleSrc := .tempered
  postSeedCursor := .stateLength
  cvt := .castThenDivide

/-- FREE VALUE (log 2): what a read of word `i` of the `w`-bit space gives while that word holds no value. The spec gives it
none (spec/10_state.md R33, spec/93_implementation_defined.md U5 "any value"), so it has no body here: nothing can be
proved of it. -/
opaque Config.unwritten (w : Nat) (i : Nat) : BitVec w

end Sys2Proof
end

