-- ==== Sys2Proof/Machine/Convert.lean ====
section
/-! DEFINITION. IEEE binary64 as far as the block uses it (spec/00_scope.md R15, spec/43_emit.md R150 to R153): the
conversion of an unsigned integer, the correctly rounded quotient, the bit pattern, and the conversion `CVT_W`. Rounding is
to nearest, ties to even, always (R153). -/

namespace Sys2Proof.Machine

/-- The integer nearest to `a / b`, ties to even (`0 < b`). -/
def roundDivEven (a b : Nat) : Nat :=
  let q := a / b
  let r := a % b
  if 2 * r < b then q
  else if b < 2 * r then q + 1
  else q + q % 2

/-- The exponent `t` with `2 ^ t ≤ a / b < 2 ^ (t + 1)` (`0 < a`, `0 < b`). -/
def ratLog2 (a b : Nat) : Int :=
  let t : Int := (a.log2 : Int) - (b.log2 : Int)
  if b * 2 ^ t.toNat ≤ a * 2 ^ (-t).toNat then t else t - 1

/-- The binary64 number nearest to the rational `a / b`, ties to even (`0 < b`): 53 significant bits. The exponent is not
bounded (log 18). -/
def f64OfRat (a b : Nat) : F64 :=
  if a = 0 then { mant := 0, exp := 0 }
  else
    let t := ratLog2 a b
    let m := roundDivEven (a * 2 ^ (52 - t).toNat) (b * 2 ^ (t - 52).toNat)
    if m = 2 ^ 53 then { mant := 2 ^ 52, exp := t - 51 } else { mant := m, exp := t - 52 }

/-- `f64(n)` (spec/00_scope.md R15). -/
def f64OfNat (n : Nat) : F64 := f64OfRat n 1

/-- `x /_f64 y` (spec/00_scope.md R15) for `y` not zero. -/
def f64Div (x y : F64) : F64 :=
  f64OfRat (x.mant * 2 ^ (x.exp - y.exp).toNat) (y.mant * 2 ^ (y.exp - x.exp).toNat)

/-- `bits64` (spec/00_scope.md R15): sign 0 in bit 63, biased exponent in bits 62:52, fraction in bits 51:0. -/
def bits64 (x : F64) : Word64 :=
  if x.mant = 0 then 0#64
  else BitVec.ofNat 64 ((x.exp + 52 + 1023).toNat * 2 ^ 52 + (x.mant - 2 ^ 52))

/-- The divisor `DIV_W = 2^W - 1` (spec/00_scope.md R8). -/
def divisor (w : Nat) : Nat := 2 ^ w - 1

/-- `CVT_W(y)` (spec/43_emit.md R150, R151): `f64(y) /_f64 f64(2^W - 1)`; the other reading of R151 under
`roundQuotientOnce` (spec/93_implementation_defined.md U12). -/
def cvt {w : Nat} (mode : CvtMode) (y : BitVec w) : F64 :=
  match mode with
  | .castThenDivide => f64Div (f64OfNat y.toNat) (f64OfNat (divisor w))
  | .roundQuotientOnce => f64OfRat y.toNat (divisor w)

end Sys2Proof.Machine
end

