-- ==== Sys2Proof/Machine/State.lean ====
section
/-! DEFINITION. The state of the TFG as plain data (spec/10_state.md R20 to R36, spec/30_encoding.md R70), its value after
reset (R33), and the reasons a step can stop. -/

namespace Sys2Proof.Machine

/-- One engine `E_W` (spec/10_state.md R20): the state array and the cursor, the test-build counter (R31), and the working
registers of the command in flight that have the engine's width (R30). `w` is `W`, `cw` is `CW_W`. -/
structure Engine (w cw : Nat) where
  /-- `mt_W`, the state array (R22): the words that hold a value. -/
  mt : Mem w
  /-- `idx_W`, the cursor (R23). -/
  idx : BitVec cw
  /-- `regen_count_W` (R31); ghost state while HAS_DEBUG is false (log 8). -/
  regenCount : BitVec 32
  /-- `k`, the loop index (R30). -/
  k : BitVec cw
  /-- `yc`, the bit-combined word (R30). -/
  yc : BitVec w
  /-- `raw`, the word read at the cursor (R30). -/
  raw : BitVec w
  /-- `y`, the word being tempered (R30). -/
  y : BitVec w
  deriving DecidableEq, Repr

/-- `rsp_fault` (spec/30_encoding.md R81). Codes 2 and 3 are never produced and are no value here
(spec/93_implementation_defined.md U7). -/
inductive RspFault where
  /-- code 0 -/
  | noFault
  /-- code 1, `InvalidArgument(WidthUnsupported, w)` with the offending width (spec/60_exceptions.md R170, R171) -/
  | widthUnsupported (w : Byte)
  deriving DecidableEq, Repr

/-- One transfer on the response port (spec/30_encoding.md R70, R73). -/
structure Response where
  /-- `rsp_fault` -/
  fault : RspFault
  /-- `rsp_handle` -/
  handle : Word64
  /-- `rsp_result` as `bits64`; absent on a fault (spec/60_exceptions.md R173) -/
  result : Option Word64
  deriving DecidableEq, Repr

/-- What the host presents (spec/30_encoding.md R70): one transfer on the command port, or the reset event. -/
inductive HostEvent where
  | command (width : Byte) (handle : Word64)
  | reset
  deriving DecidableEq, Repr

/-- The state. -/
structure State where
  /-- engine E32 -/
  e32 : Engine 32 10
  /-- engine E64 -/
  e64 : Engine 64 9
  /-- `phase` (spec/10_state.md R30): IDLE in the resting state -/
  phase : Phase
  /-- `sel` (R30) -/
  sel : EngineSel
  /-- `H_in` as latched on leaving IDLE for SEED (spec/40_draw.md R93); the low `W` bits are used -/
  hIn : Word64
  /-- `lcg`, the running value of SEED64 (R30) -/
  lcg : Word64
  /-- `cmd_width` of the command in flight (spec/30_encoding.md R70) -/
  cmdWidth : Byte
  /-- `cmd_handle` of the command in flight (spec/30_encoding.md R70) -/
  cmdHandle : Word64
  /-- The model's own field (log 5): what the host is still going to present, in order. -/
  host : List HostEvent
  /-- The responses delivered on the response port, newest first (spec/70_reset_and_hazards.md R208; log 5). -/
  responses : List Response
  deriving DecidableEq, Repr

/-- The state right after reset (spec/10_state.md R33). The cursors, the phase and the counters have the values of R33, the
arrays hold no value; the working registers, the port registers and the host's side have the values of log 3, 4 and 5. -/
def State.reset : State where
  e32 := { mt := [], idx := 625#10, regenCount := 0#32, k := 0#10, yc := 0#32, raw := 0#32, y := 0#32 }
  e64 := { mt := [], idx := 313#9, regenCount := 0#32, k := 0#9, yc := 0#64, raw := 0#64, y := 0#64 }
  phase := .idle
  sel := .e32
  hIn := 0#64
  lcg := 0#64
  cmdWidth := 0#8
  cmdHandle := 0#64
  host := []
  responses := []

/-- Why the machine stops. -/
inductive Fault where
  /-- Raised by `EMIT32` and `EMIT64` (alone, or as the last part of a draw) when the cursor is not below `N`: the
  precondition of spec/43_emit.md R145, which "is always met" where the spec's own control reaches it
  (spec/10_state.md R36). SAFE: no rule reaches it, and the model gives such a state no successor (log 9). -/
  | emitPreconditionViolated
  deriving DecidableEq, Repr

/-- Why the model gives no meaning. -/
inductive Refusal where
  /-- An arm of `exec` that is not modelled yet. No arm raises it. SAFE: it removes behaviour. -/
  | notModelled (mnemonic : String)
  /-- Raised by `hostMove`, so by `present` and `runLine`, and by no instruction and no step of the block: a host sends a command
  while another is in flight. The block does not accept it and "the host has no move" (spec/70_reset_and_hazards.md R199).
  SAFE: the overlap has no outcome. -/
  | commandInFlight
  deriving DecidableEq, Repr

/-- What the control finds to do next (used by `step`): the reset event, a command it has accepted, or the micro-operation
in progress. The state each carries is the one the instruction runs in. -/
inductive Fetched where
  | reset (s : State)
  | command (i : Instr) (s : State)
  | microOp (i : Instr) (s : State)
  deriving DecidableEq, Repr

end Sys2Proof.Machine
end

