-- ==== Sys2Proof/Machine/Ops.lean ====
section
/-! DEFINITION. The named operations over the machine's memories, the response port, the fault response and the reset event.
The fault response is the block's whole "trap entry" (spec/60_exceptions.md R173); there is no return from it (R178). -/

namespace Sys2Proof.Machine

/-- The word that index `i` holds, if it holds one. -/
def memLookup {w : Nat} (m : Mem w) (i : Nat) : Option (BitVec w) :=
  match m with
  | [] => none
  | (a, v) :: t => if a = i then some v else memLookup t i

/-- `MemRead((ST_W, i), W/8)` (spec/20_memory.md R51): the word last written to `i`; where `i` holds no value, the free
value of log 2. A read has no side effect (R56). -/
def memRead {w : Nat} (m : Mem w) (i : Nat) : BitVec w := (memLookup m i).getD (Config.unwritten w i)

/-- `MemWrite((ST_W, i), W/8, v)` (spec/20_memory.md R51): replaces the word at `i` and no other (R56), and keeps the
canonical form. -/
def memWrite {w : Nat} (m : Mem w) (i : Nat) (v : BitVec w) : Mem w :=
  match m with
  | [] => [(i, v)]
  | (a, x) :: t =>
    if i < a then (i, v) :: (a, x) :: t
    else if i = a then (i, v) :: t
    else (a, x) :: memWrite t i v

/-- Every word of a space of `n` words holds a value (spec/10_state.md R36). -/
abbrev memFull {w : Nat} (n : Nat) (m : Mem w) : Prop := ∀ i, i < n → (memLookup m i).isSome = true

/-- Deliver a response on the response port (spec/30_encoding.md R70). -/
def respond (r : Response) (s : State) : State := { s with responses := r :: s.responses }

/-- The response of a command with an unsupported width (spec/60_exceptions.md R173): fault code 1 with the offending width,
the handle returned unchanged, no result. -/
def faultResponse (w : Byte) (handle : Word64) : Response where
  fault := .widthUnsupported w
  handle := handle
  result := none

/-- TAKING THE FAULT (spec/60_exceptions.md R172, R173): the response and nothing else. No state is saved, no mode changes,
control goes nowhere. -/
def takeFault (w : Byte) (s : State) : State := respond (faultResponse w s.cmdHandle) s

/-- The reset event (spec/70_reset_and_hazards.md R195, R196): the block has the values of R33; a command in flight is
abandoned without a response. The host's side (what it will still present, what it has received) is not the block's and
stays (log 16). -/
def resetEvent (s : State) : State := { State.reset with host := s.host, responses := s.responses }

/-- `bits` of `rsp_fault` (spec/30_encoding.md R81). -/
def faultCode (f : RspFault) : BitVec 2 :=
  match f with
  | .noFault => 0#2
  | .widthUnsupported _ => 1#2

end Sys2Proof.Machine
end

