-- ==== Sys2Proof/Machine/Flags.lean ====
section
/-! DEFINITION. The derived condition flags (spec/10_state.md R25): functions of the cursor alone, written only through it. -/

namespace Sys2Proof.Machine

/-- `UNINIT_W := (idx_W = N+1)` (spec/10_state.md R24, R25). -/
def uninit {w cw : Nat} (p : EngineParams w) (e : Engine w cw) : Bool := e.idx.toNat == p.n + 1

/-- `EXHAUSTED_W := (idx_W = N)` (spec/10_state.md R25). -/
def exhausted {w cw : Nat} (p : EngineParams w) (e : Engine w cw) : Bool := e.idx.toNat == p.n

/-- `READY_W := (idx_W < N)` (spec/10_state.md R25). -/
def ready {w cw : Nat} (p : EngineParams w) (e : Engine w cw) : Bool := decide (e.idx.toNat < p.n)

end Sys2Proof.Machine
end

