-- ==== Sys2Proof/Machine/Operands.lean ====
section
/-! DEFINITION. Operand forms: the handle operand of a command (spec/30_encoding.md R72), the response of a draw (R73), the
effective seed (spec/41_seed.md R110), and what a draw latches (spec/40_draw.md R93). -/

namespace Sys2Proof.Machine

/-- `H_in` of `DRAW32`: `cmd_handle[31:0]`; bits 63:32 are ignored (spec/30_encoding.md R72). -/
def handleIn32 (handle : Word64) : Word32 := handle.extractLsb' 0 32

/-- `H_in` of `DRAW64`: `cmd_handle[63:0]` (spec/30_encoding.md R72). -/
def handleIn64 (handle : Word64) : Word64 := handle

/-- The response of a command that does not fault (spec/30_encoding.md R73): `rsp_fault = 0`, `rsp_handle = zext_64(H_out)`,
`rsp_result = bits64(RES)`. -/
def drawResponse {w : Nat} (hOut : BitVec w) (res : Word64) : Response where
  fault := .noFault
  handle := hOut.zeroExtend 64
  result := some res

/-- The effective seed (spec/41_seed.md R110): zero is coerced to `DEFSEED_W`. -/
def effectiveSeed {w : Nat} (p : EngineParams w) (hIn : BitVec w) : BitVec w :=
  if hIn = 0#w then p.defSeed else hIn

end Sys2Proof.Machine
end

