-- ==== Sys2Proof/Machine/Emit.lean ====
section
/-! DEFINITION. The output micro-operations EMIT32 and EMIT64 (spec/43_emit.md R145 to R149): the word at the cursor,
tempering, the cursor's advance, the handle and the result. -/

namespace Sys2Proof.Machine

/-- `TEMPER_W(x)` (spec/43_emit.md R146, R147): the four shift, mask and exclusive-OR steps. -/
def temper {w : Nat} (p : EngineParams w) (x : BitVec w) : BitVec w :=
  let y1 := x ^^^ (x >>> p.tu)
  let y2 := y1 ^^^ ((y1 <<< p.ts) &&& p.tb)
  let y3 := y2 ^^^ ((y2 <<< p.tt) &&& p.tc)
  y3 ^^^ (y3 >>> p.tl)

/-- The engine's part of `EMIT_W` (spec/43_emit.md R145): read the word at the cursor, temper it, advance the cursor. The
array is not modified. -/
def emitEngine {w cw : Nat} (p : EngineParams w) (e : Engine w cw) : Engine w cw :=
  { e with raw := memRead e.mt e.idx.toNat, y := temper p (memRead e.mt e.idx.toNat), idx := e.idx + 1#cw }

/-- `H_out` (spec/43_emit.md R149): the tempered word, or the raw word under the other configuration. -/
def handleOut {w : Nat} (src : HandleSrc) (raw y : BitVec w) : BitVec w :=
  match src with
  | .tempered => y
  | .untempered => raw

/-- The response of `EMIT_W` (spec/43_emit.md R145, spec/30_encoding.md R73), from `raw` and `y`. -/
def emitResponse {w : Nat} (p : Params) (raw y : BitVec w) : Response :=
  drawResponse (handleOut p.handleSrc raw y) (bits64 (cvt p.cvt y))

/-- `EMIT32` (spec/43_emit.md R145). Its precondition is `idx32 < N` (log 9). -/
def emit32 (p : Params) (s : State) : Host.Outcome State Fault Refusal :=
  if ready p.e32 s.e32 then
    let e := emitEngine p.e32 s.e32
    .next (respond (emitResponse p e.raw e.y) { s with e32 := e })
  else .fault .emitPreconditionViolated

/-- `EMIT64` (spec/43_emit.md R145). Its precondition is `idx64 < N` (log 9). -/
def emit64 (p : Params) (s : State) : Host.Outcome State Fault Refusal :=
  if ready p.e64 s.e64 then
    let e := emitEngine p.e64 s.e64
    .next (respond (emitResponse p e.raw e.y) { s with e64 := e })
  else .fault .emitPreconditionViolated

/-- Meaning of `EMIT32`. -/
def execEmit32 (s : State) : Host.Outcome State Fault Refusal := emit32 Config.params s

/-- Meaning of `EMIT64`. -/
def execEmit64 (s : State) : Host.Outcome State Fault Refusal := emit64 Config.params s

end Sys2Proof.Machine
end

