-- ==== Sys2Proof/Machine/Regen.lean ====
section
/-! DEFINITION. The batch regeneration micro-operations REGEN32 and REGEN64 (spec/42_regen.md R125 to R135), by the modulo
form of R131, which "is the definition" (spec/90_conflicts.md C7). The forms by index ranges of R128 and R129 stand in
Sys2Proof/Machine/RegenRanges.lean. -/

namespace Sys2Proof.Machine

/-- `COMBINE_W(a, b) = (a & UMASK_W) | (b & LMASK_W)` (spec/42_regen.md R126). -/
def combine {w : Nat} (p : EngineParams w) (a b : BitVec w) : BitVec w := (a &&& p.umask) ||| (b &&& p.lmask)

/-- `MAG_W[b]` (spec/10_state.md R28). -/
def magTable {w : Nat} (p : EngineParams w) (b : Bool) : BitVec w := if b then p.mag1 else p.mag0

/-- `FEED_W(c) = (c >> 1) ^ MAG_W[c[0]]` (spec/42_regen.md R127). -/
def feed {w : Nat} (p : EngineParams w) (c : BitVec w) : BitVec w := (c >>> 1) ^^^ magTable p (c.getLsbD 0)

/-- `yc` at step `k` (spec/42_regen.md R131): the array's words at `k` and `(k+1) mod N` at that moment. -/
def regenYc {w : Nat} (p : EngineParams w) (m : Mem w) (k : Nat) : BitVec w :=
  combine p (memRead m k) (memRead m ((k + 1) % p.n))

/-- The new word of step `k` (spec/42_regen.md R125, R131). -/
def regenWord {w : Nat} (p : EngineParams w) (m : Mem w) (k : Nat) : BitVec w :=
  p.lags.foldl (fun acc lag => acc ^^^ memRead m ((k + lag) % p.n)) (feed p (regenYc p m k))

/-- Step `k` of the pass, in place (spec/42_regen.md R130). -/
def regenStep {w cw : Nat} (p : EngineParams w) (e : Engine w cw) (k : Nat) : Engine w cw :=
  { e with mt := memWrite e.mt k (regenWord p e.mt k), k := BitVec.ofNat cw k, yc := regenYc p e.mt k }

/-- `REGEN_W` (spec/42_regen.md R130 to R132): the steps `k = 0 .. N-1` in that order, then the cursor and the counter. -/
def regen {w cw : Nat} (p : EngineParams w) (e : Engine w cw) : Engine w cw :=
  let e' := (List.range p.n).foldl (regenStep p) e
  { e' with idx := 0#cw, regenCount := e'.regenCount + 1#32 }

/-- `REGEN32` (spec/42_regen.md R128). -/
def regen32 (p : Params) (s : State) : State := { s with e32 := regen p.e32 s.e32 }

/-- `REGEN64` (spec/42_regen.md R129). -/
def regen64 (p : Params) (s : State) : State := { s with e64 := regen p.e64 s.e64 }

/-- Meaning of `REGEN32`. -/
def execRegen32 (s : State) : Host.Outcome State Fault Refusal := .next (regen32 Config.params s)

/-- Meaning of `REGEN64`. -/
def execRegen64 (s : State) : Host.Outcome State Fault Refusal := .next (regen64 Config.params s)

end Sys2Proof.Machine
end

