-- ==== Sys2Proof/Machine/Seed.lean ====
section
/-! DEFINITION. The seeding micro-operations SEED32 and SEED64 (spec/41_seed.md R110 to R114). -/

namespace Sys2Proof.Machine

/-- The cursor after seeding (spec/41_seed.md R113): `N`, or 0 under the other configuration. -/
def postSeedIdx (p : Params) (n cw : Nat) : BitVec cw :=
  match p.postSeedCursor with
  | .stateLength => BitVec.ofNat cw n
  | .zero => 0#cw

/-- One step of the seeding recurrence (spec/41_seed.md R111, R112): `SEEDMUL *_W x +_W SEEDINC`. -/
def seedLcg {w : Nat} (p : EngineParams w) (x : BitVec w) : BitVec w := p.seedMul * x + p.seedInc

/-- Loop body of SEED32 at `k` (spec/41_seed.md R111): `mt[k] <- SEEDMUL *_W mt[k-1] +_W SEEDINC`. -/
def seedStep32 {w cw : Nat} (p : EngineParams w) (e : Engine w cw) (k : Nat) : Engine w cw :=
  { e with mt := memWrite e.mt k (seedLcg p (memRead e.mt (k - 1))), k := BitVec.ofNat cw k }

/-- The array SEED32 writes (spec/41_seed.md R111), from the effective seed. -/
def seedFill32 {w cw : Nat} (p : EngineParams w) (seed : BitVec w) (e : Engine w cw) : Engine w cw :=
  (List.range' 1 (p.n - 1)).foldl (seedStep32 p) { e with mt := memWrite e.mt 0 seed }

/-- `SEED32` (spec/41_seed.md R111). -/
def seed32 (p : Params) (s : State) : State :=
  let e := seedFill32 p.e32 (effectiveSeed p.e32 (handleIn32 s.hIn)) s.e32
  { s with e32 := { e with idx := postSeedIdx p p.e32.n 10 } }

/-- Loop body of SEED64 at `k` (spec/41_seed.md R112): the high half of the running value before the first step is the high
half of the word, the high half of the running value after it the low half; then a second step. -/
def seedStep64 {cw : Nat} (p : EngineParams 64) (x : Engine 64 cw × Word64) (k : Nat) : Engine 64 cw × Word64 :=
  let hi : Word32 := x.2.extractLsb' 32 32
  let lcg1 := seedLcg p x.2
  let lo : Word32 := lcg1.extractLsb' 32 32
  let lcg2 := seedLcg p lcg1
  ({ x.1 with mt := memWrite x.1.mt k (hi ++ lo), k := BitVec.ofNat cw k }, lcg2)

/-- The array SEED64 writes and the final running value (spec/41_seed.md R112), from the effective seed. -/
def seedFill64 {cw : Nat} (p : EngineParams 64) (seed : Word64) (e : Engine 64 cw) : Engine 64 cw × Word64 :=
  (List.range p.n).foldl (seedStep64 p) (e, seed)

/-- `SEED64` (spec/41_seed.md R112). -/
def seed64 (p : Params) (s : State) : State :=
  let x := seedFill64 p.e64 (effectiveSeed p.e64 (handleIn64 s.hIn)) s.e64
  { s with e64 := { x.1 with idx := postSeedIdx p p.e64.n 9 }, lcg := x.2 }

/-- Meaning of `SEED32`. -/
def execSeed32 (s : State) : Host.Outcome State Fault Refusal := .next (seed32 Config.params s)

/-- Meaning of `SEED64`. -/
def execSeed64 (s : State) : Host.Outcome State Fault Refusal := .next (seed64 Config.params s)

end Sys2Proof.Machine
end

