-- ==== Sys2Proof/Machine/Draw.lean ====
section
/-! DEFINITION. The commands DRAW32, DRAW64 and RESERVED, and IDLE (spec/40_draw.md R90 to R96, spec/30_encoding.md R75,
R78). A draw is ONE atomic transition (R90). -/

namespace Sys2Proof.Machine

/-- What leaving IDLE latches for a draw of E32 (spec/40_draw.md R93): `sel`, and `H_in` only where the engine is
uninitialized (R94, R95). -/
def latch32 (p : Params) (s : State) : State :=
  { s with
    sel := .e32
    hIn := if uninit p.e32 s.e32 then (handleIn32 s.cmdHandle).zeroExtend 64 else s.hIn }

/-- The same for a draw of E64. -/
def latch64 (p : Params) (s : State) : State :=
  { s with
    sel := .e64
    hIn := if uninit p.e64 s.e64 then handleIn64 s.cmdHandle else s.hIn }

/-- Leaving EMIT for IDLE (spec/40_draw.md R93). -/
def toIdle (o : Host.Outcome State Fault Refusal) : Host.Outcome State Fault Refusal :=
  match o with
  | .next s => .next { s with phase := .idle }
  | .fault f => .fault f
  | .refused r => .refused r

/-- `DRAW32` (spec/40_draw.md R91): seed if uninitialized, regenerate if exhausted, emit; the two tests in this order, each
on the cursor at that point. -/
def draw32 (p : Params) (s : State) : Host.Outcome State Fault Refusal :=
  let s0 := latch32 p s
  let s1 := if uninit p.e32 s0.e32 then seed32 p s0 else s0
  let s2 := if exhausted p.e32 s1.e32 then regen32 p s1 else s1
  toIdle (emit32 p s2)

/-- `DRAW64` (spec/40_draw.md R92). -/
def draw64 (p : Params) (s : State) : Host.Outcome State Fault Refusal :=
  let s0 := latch64 p s
  let s1 := if uninit p.e64 s0.e64 then seed64 p s0 else s0
  let s2 := if exhausted p.e64 s1.e64 then regen64 p s1 else s1
  toIdle (emit64 p s2)

/-- Meaning of `DRAW32`. -/
def execDraw32 (s : State) : Host.Outcome State Fault Refusal := draw32 Config.params s

/-- Meaning of `DRAW64`. -/
def execDraw64 (s : State) : Host.Outcome State Fault Refusal := draw64 Config.params s

/-- Meaning of `RESERVED` (spec/30_encoding.md R75): the fault response, no engine state changed. -/
def execReserved (w : Byte) (s : State) : Host.Outcome State Fault Refusal := .next (takeFault w s)

/-- Meaning of `IDLE` (spec/30_encoding.md R78, spec/40_draw.md R93): no command in flight; nothing happens, whatever the
don't-care bit `_sel` is. -/
def execIdle (_sel : EngineSel) (s : State) : Host.Outcome State Fault Refusal := .next s

end Sys2Proof.Machine
end

