-- ==== Sys2Proof/Machine/Control.lean ====
section
/-! DEFINITION. The control around an instruction: the four-phase machine of spec/40_draw.md R93, accepting a command
(R90), and what the next step does (spec/60_exceptions.md R177: a reset wins over a command in flight). `step` calls these. -/

namespace Sys2Proof.Machine

/-- The phase after a micro-operation (spec/40_draw.md R93). After SEED it is EMIT under `POST_SEED_CURSOR = 0`. -/
def nextPhase (p : Params) (ph : Phase) : Phase :=
  match ph with
  | .idle => .idle
  | .seed =>
    match p.postSeedCursor with
    | .stateLength => .regen
    | .zero => .emit
  | .regen => .emit
  | .emit => .idle

/-- The phase a draw enters from IDLE, by the cursor's flags (spec/40_draw.md R93). -/
def entryPhase (isUninit isExhausted : Bool) : Phase :=
  if isUninit then .seed else if isExhausted then .regen else .emit

/-- IDLE accepts a DRAW32 and enters its first phase (spec/40_draw.md R93): the three rows "IDLE, command accepted". -/
def enterDraw32 (p : Params) (s : State) : State :=
  { latch32 p s with phase := entryPhase (uninit p.e32 s.e32) (exhausted p.e32 s.e32) }

/-- IDLE accepts a DRAW64 and enters its first phase. -/
def enterDraw64 (p : Params) (s : State) : State :=
  { latch64 p s with phase := entryPhase (uninit p.e64 s.e64) (exhausted p.e64 s.e64) }

/-- A micro-operation has run: the phase moves on (spec/40_draw.md R93). -/
def advancePhase (p : Params) (o : Host.Outcome State Fault Refusal) : Host.Outcome State Fault Refusal :=
  match o with
  | .next s => .next { s with phase := nextPhase p s.phase }
  | .fault f => .fault f
  | .refused r => .refused r

/-- The block takes a transfer from the command port (spec/30_encoding.md R70, spec/40_draw.md R90): its fields stand in the
port registers and the host's next event comes up. DESIGN CHOICE (log 4): the fields stay there until the next command is
accepted or a reset, after a fault too; the spec says nothing of them after the response. -/
def acceptCommand (width : Byte) (handle : Word64) (rest : List HostEvent) (s : State) : State :=
  { s with cmdWidth := width, cmdHandle := handle, host := rest }

/-- What comes next. A reset event at the head of the host's events comes first, in every phase (spec/60_exceptions.md
R177). Otherwise, in a phase other than IDLE, the micro-operation `uop = {sel, phase}` (spec/30_encoding.md R78); in IDLE,
the command the host presents, or IDLE where it presents none. -/
def fetch (s : State) : Fetched :=
  match s.host with
  | .reset :: rest => .reset { s with host := rest }
  | .command width handle :: rest =>
    match s.phase with
    | .idle => .command (decodeCommand width) (acceptCommand width handle rest s)
    | .seed => .microOp (uopInstr s.sel .seed) s
    | .regen => .microOp (uopInstr s.sel .regen) s
    | .emit => .microOp (uopInstr s.sel .emit) s
  | [] => .microOp (uopInstr s.sel s.phase) s

/-- The code of `decodeTableWord` placed where the next step takes its instruction from: a command byte becomes the host's
next event, with the bits above the byte as its handle (log 12); a micro-operation code is set in `sel` and `phase`. -/
def placeCode (nbits w : Nat) (s : State) : State :=
  match tableCode nbits w with
  | .command b => { s with phase := .idle, host := .command b (BitVec.ofNat 64 (w / 2 ^ 8)) :: s.host }
  | .uop c =>
    match decodePhase c with
    | some ph => { s with phase := ph, sel := decodeSel c, host := [] }
    | none => s

/-- The read-only debug view (spec/60_exceptions.md R182, spec/30_encoding.md R70): `dbg_idx32`, `dbg_idx64`,
`dbg_regen_count32`, `dbg_regen_count64`; it exists only if `HAS_DEBUG`. DESIGN CHOICE (log 22): R182 speaks of sampling between
commands only; the view here does not test `phase`, so inside a command it shows the values of that moment. -/
def debugView (p : Params) (s : State) : Option (BitVec 10 × BitVec 9 × BitVec 32 × BitVec 32) :=
  if p.hasDebug then some (s.e32.idx, s.e64.idx, s.e32.regenCount, s.e64.regenCount) else none

end Sys2Proof.Machine
end

