-- ==== Sys2Proof/Machine/Dispatch.lean ====
section
/-! DEFINITION. The dispatch: one arm per constructor of `Instr`. -/

namespace Sys2Proof.Machine

def exec (i : Instr) (s : State) : Host.Outcome State Fault Refusal :=
  match i with
  | .draw32 => Sys2Proof.Machine.execDraw32 s
  | .draw64 => Sys2Proof.Machine.execDraw64 s
  | .reserved w => Sys2Proof.Machine.execReserved w s
  | .seed32 => Sys2Proof.Machine.execSeed32 s
  | .regen32 => Sys2Proof.Machine.execRegen32 s
  | .emit32 => Sys2Proof.Machine.execEmit32 s
  | .seed64 => Sys2Proof.Machine.execSeed64 s
  | .regen64 => Sys2Proof.Machine.execRegen64 s
  | .emit64 => Sys2Proof.Machine.execEmit64 s
  | .idle sel => Sys2Proof.Machine.execIdle sel s

end Sys2Proof.Machine
end

