-- ==== Sys2Proof/Machine/Step.lean ====
section
/-! DEFINITION. One step: what `fetch` finds, run by `exec` (spec/40_draw.md R90, R93). -/

namespace Sys2Proof.Machine

/-- One step of the machine. A command of a resting machine is one step (spec/40_draw.md R90). -/
def step (s : State) : Host.Outcome State Fault Refusal :=
  match fetch s with
  | .reset t => .next (resetEvent t)
  | .command i t => exec i t
  | .microOp i t => advancePhase Config.params (exec i t)

/-- `s` with the instruction of a table row placed where `step` takes its next instruction from. -/
def State.withFetchWord (s : State) (nbits w : Nat) : State := placeCode nbits w s

end Sys2Proof.Machine
end

