-- ==== Sys2Proof/Machine/HostProgram.lean ====
section
/-! DEFINITION. The host's side of a run (spec/30_encoding.md R79, spec/60_exceptions.md R184): a program is a list of lines
over handle variables of the host, executed strictly in order; each line is one event for the block. Nothing here is state
of the block. -/

namespace Sys2Proof.Machine

/-- One line of a program (spec/30_encoding.md R79, R80). `DRAW32 h` is `draw 32 h`, `DRAW64 h` is `draw 64 h`. -/
inductive ProgramLine where
  | draw (width : Byte) (var : Nat)
  | reset
  deriving DecidableEq, Repr

/-- A host with its handle variables and the block it drives. -/
structure HostedBlock where
  block : State
  handles : List Word64
  deriving DecidableEq, Repr

/-- The encoding of a program: its command bytes (spec/30_encoding.md R79); `RESET` has none. -/
def programBytes (ls : List ProgramLine) : List Byte :=
  ls.filterMap fun l =>
    match l with
    | .draw width _ => some width
    | .reset => none

/-- The event a line presents: the variable's value goes out as `cmd_handle`. -/
def lineEvent (handles : List Word64) (l : ProgramLine) : HostEvent :=
  match l with
  | .draw width var => .command width (handles.getD var 0)
  | .reset => .reset

/-- What the host does with the response: the variable is overwritten when the response carries no fault
(spec/30_encoding.md R79). -/
def storeHandle (handles : List Word64) (l : ProgramLine) (r : Option Response) : List Word64 :=
  match l, r with
  | .draw _ var, some ⟨.noFault, handle, _⟩ => handles.set var handle
  | .draw _ _, some ⟨.widthUnsupported _, _, _⟩ => handles
  | .draw _ _, none => handles
  | .reset, _ => handles

/-- A move of the host: it presents one event, before those still pending, and the block takes one step. A command is a move
only at rest, in IDLE: while another is in flight the block does not accept it and the host has no move
(spec/70_reset_and_hazards.md R199). A reset is a move in every phase (R195; spec/60_exceptions.md R184, "reset at any time"). -/
def hostMove (e : HostEvent) (s : State) : Host.Outcome State Fault Refusal :=
  match e with
  | .reset => step { s with host := .reset :: s.host }
  | .command width handle =>
    if s.phase = .idle then step { s with host := .command width handle :: s.host } else .refused .commandInFlight

/-- One line: the host's move with its event, then the handle is stored. A draw line has no outcome on a block that is not at
rest (`hostMove`), so the newest response is the line's own. -/
def runLine (h : HostedBlock) (l : ProgramLine) : Host.Outcome HostedBlock Fault Refusal :=
  match hostMove (lineEvent h.handles l) h.block with
  | .next s => .next { block := s, handles := storeHandle h.handles l s.responses.head? }
  | .fault f => .fault f
  | .refused r => .refused r

/-- A whole program, in order (spec/30_encoding.md R79, spec/70_reset_and_hazards.md R208). -/
def runProgram (h : HostedBlock) (ls : List ProgramLine) : Host.Outcome HostedBlock Fault Refusal :=
  match ls with
  | [] => .next h
  | l :: rest =>
    match runLine h l with
    | .next h' => runProgram h' rest
    | .fault f => .fault f
    | .refused r => .refused r

end Sys2Proof.Machine
end

