-- ==== Sys2Proof/Machine/RegenRanges.lean ====
section
/-! DEFINITION. The regeneration pass as spec/42_regen.md R128 and R129 write it, "without modulo": by index ranges and the
last word. Not used by `exec`; R131 says that these are exactly the modulo form of Sys2Proof/Machine/Regen.lean. -/

namespace Sys2Proof.Machine

/-- A loop `for k = a .. b-1` of assignments `mt[k] <- f(mt, k)` (spec/00_scope.md R16). -/
def forRange {w : Nat} (a b : Nat) (f : Mem w → Nat → BitVec w) (m : Mem w) : Mem w :=
  (List.range' a (b - a)).foldl (fun m k => memWrite m k (f m k)) m

/-- `(yc >> 1) ^ MAG_W[yc[0]]` for the words at `k` and `nxt`. -/
def rangeFeed {w : Nat} (p : EngineParams w) (m : Mem w) (k nxt : Nat) : BitVec w :=
  feed p (combine p (memRead m k) (memRead m nxt))

/-- The pass of `REGEN32` with its one lag (spec/42_regen.md R128): two index ranges and the last word. -/
def regenRanges32 {w : Nat} (p : EngineParams w) (lag : Nat) (m : Mem w) : Mem w :=
  let n := p.n
  let m := forRange 0 (n - lag) (fun m k => memRead m (k + lag) ^^^ rangeFeed p m k (k + 1)) m
  let m := forRange (n - lag) (n - 1) (fun m k => memRead m (k + lag - n) ^^^ rangeFeed p m k (k + 1)) m
  memWrite m (n - 1) (memRead m (lag - 1) ^^^ rangeFeed p m (n - 1) 0)

/-- The pass of `REGEN64` with its three lags (spec/42_regen.md R129): ranges A, B, C, D and the last word. -/
def regenRanges64 {w : Nat} (p : EngineParams w) (lag0 lag1 lag2 : Nat) (m : Mem w) : Mem w :=
  let n := p.n
  let m := forRange 0 (n - lag2) (fun m k =>
    rangeFeed p m k (k + 1) ^^^ memRead m (k + lag0) ^^^ memRead m (k + lag1) ^^^ memRead m (k + lag2)) m
  let m := forRange (n - lag2) (n - lag1) (fun m k =>
    rangeFeed p m k (k + 1) ^^^ memRead m (k + lag0) ^^^ memRead m (k + lag1) ^^^ memRead m (k + lag2 - n)) m
  let m := forRange (n - lag1) (n - lag0) (fun m k =>
    rangeFeed p m k (k + 1) ^^^ memRead m (k + lag0) ^^^ memRead m (k + lag1 - n) ^^^ memRead m (k + lag2 - n)) m
  let m := forRange (n - lag0) (n - 1) (fun m k =>
    rangeFeed p m k (k + 1) ^^^ memRead m (k + lag0 - n) ^^^ memRead m (k + lag1 - n) ^^^ memRead m (k + lag2 - n)) m
  memWrite m (n - 1)
    (rangeFeed p m (n - 1) 0 ^^^ memRead m (lag0 - 1) ^^^ memRead m (lag1 - 1) ^^^ memRead m (lag2 - 1))

end Sys2Proof.Machine
end

