-- ==== Sys2Proof/Safety.lean ====
section
/-! DEFINITION. The terms in which claims are stated: the legal states (spec/10_state.md R36, with the states inside a
command), the observable outcome of a run of commands (spec/70_reset_and_hazards.md R208), and the arrays that the rules of
spec/41_seed.md and spec/42_regen.md describe, as functions from the index to the word. -/

namespace Sys2Proof.Machine

/-- An engine's array and cursor are legal: the array is in canonical form, the cursor is at most `N + 1`, and if it is at
most `N` then every word holds a value (spec/10_state.md R23, R36). -/
abbrev EngineOk {w cw : Nat} (n : Nat) (e : Engine w cw) : Prop :=
  Mem.wf n e.mt ∧ e.idx.toNat ≤ n + 1 ∧ (e.idx.toNat ≤ n → memFull n e.mt)

/-- The cursor of an engine between commands is `N + 1` or in `[1, N]` (spec/10_state.md R36). -/
abbrev Resting {w cw : Nat} (n : Nat) (e : Engine w cw) : Prop :=
  e.idx.toNat = n + 1 ∨ (1 ≤ e.idx.toNat ∧ e.idx.toNat ≤ n)

/-- The cursor of the selected engine in a phase of a command (spec/40_draw.md R93). -/
abbrev CursorOfPhase {w cw : Nat} (n : Nat) (ph : Phase) (e : Engine w cw) : Prop :=
  match ph with
  | .idle => Resting n e
  | .seed => e.idx.toNat = n + 1
  | .regen => e.idx.toNat = n
  | .emit => e.idx.toNat < n

/-- The legal states: both engines are legal, the engine that the command in flight addresses has the cursor its phase
needs, and the other engine is at rest (spec/10_state.md R36; in IDLE both are at rest). -/
abbrev Inv (s : State) : Prop :=
  EngineOk 624 s.e32 ∧ EngineOk 312 s.e64 ∧
  match s.sel with
  | .e32 => CursorOfPhase 624 s.phase s.e32 ∧ Resting 312 s.e64
  | .e64 => Resting 624 s.e32 ∧ CursorOfPhase 312 s.phase s.e64

/-- The resting state (spec/00_scope.md R18, spec/40_draw.md R90): between two commands. -/
abbrev AtRest (s : State) : Prop := s.phase = .idle ∧ Inv s

/-- The host presents one command: its move `hostMove`, which a machine inside a command refuses
(spec/70_reset_and_hazards.md R199). -/
def present (s : State) (c : Byte × Word64) : Host.Outcome State Fault Refusal := hostMove (.command c.1 c.2) s

/-- The observable outcome of a run of commands (spec/70_reset_and_hazards.md R208): each command's width with the response
to it, in order. -/
def outputs (s : State) (cs : List (Byte × Word64)) : List (Byte × Option Response) :=
  match cs with
  | [] => []
  | c :: rest =>
    match present s c with
    | .next t => (c.1, t.responses.head?) :: outputs t rest
    | .fault _ => []
    | .refused _ => []

/-- The state after a run of commands. -/
def stateAfter (s : State) (cs : List (Byte × Word64)) : Host.Outcome State Fault Refusal :=
  match cs with
  | [] => .next s
  | c :: rest =>
    match present s c with
    | .next t => stateAfter t rest
    | .fault f => .fault f
    | .refused r => .refused r

/-- `DRAW32` commands with the given handles. -/
def draws32 (hs : List Word64) : List (Byte × Word64) := hs.map fun h => (0x20#8, h)

/-- `DRAW64` commands with the given handles. -/
def draws64 (hs : List Word64) : List (Byte × Word64) := hs.map fun h => (0x40#8, h)

/-- Word `k` of the array of `SEED32` in closed form (spec/41_seed.md R111, with the default constants): `69069^k * s`. -/
def seedWord32 (seed : Word32) (k : Nat) : Word32 := 69069#32 ^ k * seed

/-- The running value of `SEED64` after `j` steps (spec/41_seed.md R112, with the default constants). -/
def seedRunning64 (seed : Word64) (j : Nat) : Word64 := (fun x => 2862933555777941757#64 * x + 1#64)^[j] seed

/-- Word `k` of the array of `SEED64` (spec/41_seed.md R112): two steps per word, the high half of the running value before
the first and before the second. -/
def seedWord64 (seed : Word64) (k : Nat) : Word64 :=
  (seedRunning64 seed (2 * k)).extractLsb' 32 32 ++ (seedRunning64 seed (2 * k + 1)).extractLsb' 32 32

/-- The seed of a first draw (spec/41_seed.md R110, with the default constants). -/
def firstSeed {w : Nat} (hIn : BitVec w) : BitVec w := if hIn = 0#w then 4357#w else hIn

/-- `new` is what an in-place, ascending pass makes of `old` (spec/42_regen.md R130): at step `k` the word at `k` is the old
one, the next word and the lag words are old where their index has not wrapped and new where it has. -/
def InPlacePass {w : Nat} (p : EngineParams w) (old new : Nat → BitVec w) : Prop :=
  ∀ k, k < p.n →
    new k =
      p.lags.foldl (fun acc lag => acc ^^^ (if k + lag < p.n then old (k + lag) else new (k + lag - p.n)))
        (feed p (combine p (old k) (if k + 1 < p.n then old (k + 1) else new (k + 1 - p.n))))

/-- The engine after `b` regenerations: its array is batch `b` of spec/40_draw.md R102 and spec/42_regen.md R134. -/
def batch {w cw : Nat} (p : EngineParams w) (b : Nat) (e : Engine w cw) : Engine w cw := (regen p)^[b] e

end Sys2Proof.Machine
end

