-- ==== Sys2Proof/Certificates/Slice0/Obligations.lean ====
section
/-! DEFINITION. The statements for the provers. Each docstring names the rule of the spec that the statement formalises. The
constants that appear are those of the configuration `exec` runs: the parameter values and formula shapes of log 1, the
counter kept as ghost state (log 8), the handle source (log 13), the cursor after seeding (log 14) and the reading of the
conversion (log 15). Statements that rest on one of these are derived. -/

open Sys2Proof Sys2Proof.Machine

/-! ### Encoding -/

/-- spec/30_encoding.md R74: the opcode map of the command byte, complete. -/
def Obligations.CommandByteMap : Prop :=
  decode (.command 0x20#8) = .ok .draw32 ∧ decode (.command 0x40#8) = .ok .draw64 ∧
  ∀ b : Byte, b ≠ 0x20#8 → b ≠ 0x40#8 → decode (.command b) = .ok (.reserved b)

/-- spec/30_encoding.md R78: the table of `uop = {sel, phase[2:0]}`; the unused codes are rejected, and no micro-operation has
a command byte. -/
def Obligations.MicroOperationCodes : Prop :=
  decode (.uop 0b0000#4) = .ok (.idle .e32) ∧ decode (.uop 0b1000#4) = .ok (.idle .e64) ∧
  decode (.uop 0b0001#4) = .ok .seed32 ∧ decode (.uop 0b0010#4) = .ok .regen32 ∧ decode (.uop 0b0011#4) = .ok .emit32 ∧
  decode (.uop 0b1001#4) = .ok .seed64 ∧ decode (.uop 0b1010#4) = .ok .regen64 ∧ decode (.uop 0b1011#4) = .ok .emit64 ∧
  (∀ c : BitVec 4, c.getLsbD 2 = true → decode (.uop c) = .error (.unusedUop c)) ∧
  ∀ i ∈ [Instr.seed32, .regen32, .emit32, .seed64, .regen64, .emit64, .idle .e32, .idle .e64], commandByte i = none

/-- Decoding and encoding agree, both ways (spec/30_encoding.md R74, R77, R78): every well-formed instruction decodes from its
code, and every code that decodes is the code of a well-formed instruction. -/
def Obligations.DecodeAndEncodeAgree : Prop :=
  (∀ i : Instr, i.wellFormed = true → decode (encode i) = .ok i) ∧
  ∀ (c : CodeWord) (i : Instr), decode c = .ok i → encode i = c ∧ i.wellFormed = true

/-- Codes of the opcode table as the table numbers them (spec/30_encoding.md R74, R78). -/
def Obligations.TableWordsDecode : Prop :=
  decodeTableWord 8 0x20 = some .draw32 ∧ decodeTableWord 8 0x40 = some .draw64 ∧
  decodeTableWord 8 0x10 = some (.reserved 0x10#8) ∧ decodeTableWord 4 0b0001 = some .seed32 ∧
  decodeTableWord 4 0b1010 = some .regen64 ∧ decodeTableWord 4 0b0011 = some .emit32 ∧
  decodeTableWord 4 0b1000 = some (.idle .e64) ∧ decodeTableWord 4 0b0100 = none

/-! ### The step -/

/-- spec/40_draw.md R90, spec/30_encoding.md R70: a resting machine to which a command is presented runs the instruction its
byte decodes to, with the command's fields in the port registers and the command taken from the host's events (log 5). -/
def Obligations.StepRunsPresentedCommand : Prop :=
  ∀ (s : State) (b : Byte) (h : Word64) (rest : List HostEvent) (i : Instr),
    s.phase = .idle → s.host = .command b h :: rest → decode (.command b) = .ok i →
    step s = exec i { s with cmdWidth := b, cmdHandle := h, host := rest }

/-- spec/40_draw.md R93, spec/30_encoding.md R78 (as steps: log 10): inside a command, where no reset is presented, a step runs
the micro-operation that `{sel, phase}` encodes and moves to the phase of the table. -/
def Obligations.StepRunsMicroOperation : Prop :=
  ∀ (s : State) (i : Instr),
    s.phase ≠ .idle → s.host.head? ≠ some .reset → decode (.uop (encodeUop s.sel s.phase)) = .ok i →
    step s =
      match exec i s with
      | .next t =>
        .next { t with phase := match s.phase with
                                | .idle => .idle
                                | .seed => .regen
                                | .regen => .emit
                                | .emit => .idle }
      | .fault f => .fault f
      | .refused r => .refused r

/-- spec/70_reset_and_hazards.md R208: without a command the block stays in the resting state; IDLE changes nothing. -/
def Obligations.RestingMachineWaits : Prop :=
  (∀ s : State, s.phase = .idle → s.host = [] → step s = .next s) ∧
  ∀ (s : State) (sel : EngineSel), exec (.idle sel) s = .next s

/-- spec/70_reset_and_hazards.md R199: while a command is in flight the block accepts no other. First and second clause: a
host's command, presented or as a draw line of a program, has no step at all. Third clause, the MODEL'S choice: a command that
stands in the host's list (log 5) is left there, with the port registers, by every step inside the command (log 10); that it
waits there until IDLE is log 17. R199 speaks of no such list. -/
def Obligations.BusyBlockAcceptsNoCommand : Prop :=
  (∀ (s : State) (c : Byte × Word64), s.phase ≠ .idle → present s c = .refused .commandInFlight) ∧
  (∀ (hb : HostedBlock) (w : Byte) (var : Nat), hb.block.phase ≠ .idle →
    runLine hb (.draw w var) = .refused .commandInFlight) ∧
  ∀ (s t : State) (w : Byte) (h : Word64) (rest : List HostEvent), s.phase ≠ .idle → s.host = .command w h :: rest →
    step s = .next t → t.host = s.host ∧ t.cmdWidth = s.cmdWidth ∧ t.cmdHandle = s.cmdHandle

/-- spec/70_reset_and_hazards.md R195 with the values of R196: the reset event, in every phase, abandons the command in flight
without a response and enters the resting state. -/
def Obligations.ResetEventEntersRestingState : Prop :=
  ∀ (s : State) (rest : List HostEvent), s.host = .reset :: rest →
    ∃ t, step s = .next t ∧
      t.e32.idx.toNat = 625 ∧ t.e64.idx.toNat = 313 ∧ (∀ i, memLookup t.e32.mt i = none) ∧
      (∀ i, memLookup t.e64.mt i = none) ∧ t.phase = .idle ∧ t.e32.regenCount = 0#32 ∧ t.e64.regenCount = 0#32 ∧
      t.responses = s.responses

/-- spec/10_state.md R33: the state after reset. -/
def Obligations.ResetStateValues : Prop :=
  State.reset.e32.idx.toNat = 625 ∧ State.reset.e64.idx.toNat = 313 ∧ State.reset.phase = .idle ∧
  State.reset.e32.regenCount = 0#32 ∧ State.reset.e64.regenCount = 0#32 ∧
  (∀ i, memLookup State.reset.e32.mt i = none) ∧ ∀ i, memLookup State.reset.e64.mt i = none

/-! ### The draws -/

/-- `DRAW32` completes from every cursor `0 .. 625` (spec/40_draw.md R91, R93, R96): it seeds at 625, regenerates at 625 and
624, and emits; the array, cursor, counter, handle and result are those of the rules, and the rest of the state is as it
was, but for `phase`, `sel`, the latched `H_in` and the engine's working registers (the model's configuration: log 1, 8, 13,
14, 15; what the working registers keep: log 6, 7). -/
def Obligations.Draw32Result : Prop :=
  ∀ s : State, s.e32.idx.toNat ≤ 625 →
    ∃ (t : State) (r : Response), exec .draw32 s = .next t ∧
      t = { s with
            e32 := t.e32
            phase := .idle
            sel := .e32
            hIn := if s.e32.idx.toNat = 625 then (s.cmdHandle.extractLsb' 0 32).zeroExtend 64 else s.hIn
            responses := r :: s.responses } ∧
      (s.e32.idx.toNat = 625 →
        InPlacePass Config.e32 (seedWord32 (firstSeed (s.cmdHandle.extractLsb' 0 32))) (memRead t.e32.mt)) ∧
      (s.e32.idx.toNat = 624 → InPlacePass Config.e32 (memRead s.e32.mt) (memRead t.e32.mt)) ∧
      (s.e32.idx.toNat < 624 → t.e32.mt = s.e32.mt) ∧
      (∀ k, 624 ≤ k → memLookup t.e32.mt k = memLookup s.e32.mt k) ∧
      t.e32.idx.toNat = (if s.e32.idx.toNat < 624 then s.e32.idx.toNat + 1 else 1) ∧
      t.e32.regenCount = (if s.e32.idx.toNat < 624 then s.e32.regenCount else s.e32.regenCount + 1#32) ∧
      t.e32.raw = memRead t.e32.mt (t.e32.idx.toNat - 1) ∧ t.e32.y = temper Config.e32 t.e32.raw ∧
      r.fault = .noFault ∧ r.handle = t.e32.y.zeroExtend 64 ∧
      r.result = some (bits64 (cvt .castThenDivide t.e32.y))

/-- `DRAW64` completes from every cursor `0 .. 313` (spec/40_draw.md R92, R93, R96), as `Draw32Result`; a draw that seeds also
leaves the discarded running value in `lcg` (log 7). -/
def Obligations.Draw64Result : Prop :=
  ∀ s : State, s.e64.idx.toNat ≤ 313 →
    ∃ (t : State) (r : Response), exec .draw64 s = .next t ∧
      t = { s with
            e64 := t.e64
            phase := .idle
            sel := .e64
            hIn := if s.e64.idx.toNat = 313 then s.cmdHandle else s.hIn
            lcg := if s.e64.idx.toNat = 313 then seedRunning64 (firstSeed s.cmdHandle) 624 else s.lcg
            responses := r :: s.responses } ∧
      (s.e64.idx.toNat = 313 →
        InPlacePass Config.e64 (seedWord64 (firstSeed s.cmdHandle)) (memRead t.e64.mt)) ∧
      (s.e64.idx.toNat = 312 → InPlacePass Config.e64 (memRead s.e64.mt) (memRead t.e64.mt)) ∧
      (s.e64.idx.toNat < 312 → t.e64.mt = s.e64.mt) ∧
      (∀ k, 312 ≤ k → memLookup t.e64.mt k = memLookup s.e64.mt k) ∧
      t.e64.idx.toNat = (if s.e64.idx.toNat < 312 then s.e64.idx.toNat + 1 else 1) ∧
      t.e64.regenCount = (if s.e64.idx.toNat < 312 then s.e64.regenCount else s.e64.regenCount + 1#32) ∧
      t.e64.raw = memRead t.e64.mt (t.e64.idx.toNat - 1) ∧ t.e64.y = temper Config.e64 t.e64.raw ∧
      r.fault = .noFault ∧ r.handle = t.e64.y ∧ r.result = some (bits64 (cvt .castThenDivide t.e64.y))

/-- spec/40_draw.md R95: on an initialized engine a draw does not read the handle. Two states that agree on the engine's array
and cursor draw the same response and leave the same array and cursor. -/
def Obligations.LaterDrawIgnoresHandle : Prop :=
  (∀ s s' : State, s.e32.idx.toNat ≤ 624 → s'.e32.mt = s.e32.mt → s'.e32.idx = s.e32.idx →
    ∃ t t', exec .draw32 s = .next t ∧ exec .draw32 s' = .next t' ∧
      t'.e32.mt = t.e32.mt ∧ t'.e32.idx = t.e32.idx ∧ t'.responses.head? = t.responses.head?) ∧
  ∀ s s' : State, s.e64.idx.toNat ≤ 312 → s'.e64.mt = s.e64.mt → s'.e64.idx = s.e64.idx →
    ∃ t t', exec .draw64 s = .next t ∧ exec .draw64 s' = .next t' ∧
      t'.e64.mt = t.e64.mt ∧ t'.e64.idx = t.e64.idx ∧ t'.responses.head? = t.responses.head?

/-- spec/40_draw.md R93 against R90, R91, R92: the four-phase machine, entered from IDLE and run step by step, does what the
atomic draw does: three steps where it seeds, two where it regenerates, one otherwise. -/
def Obligations.PhaseMachineRefinesDraw : Prop :=
  ∀ s : State, s.host.head? ≠ some .reset →
    (Host.Core.run core (if s.e32.idx.toNat = 625 then 3 else if s.e32.idx.toNat = 624 then 2 else 1)
        (enterDraw32 Config.params s) = exec .draw32 s) ∧
    (Host.Core.run core (if s.e64.idx.toNat = 313 then 3 else if s.e64.idx.toNat = 312 then 2 else 1)
        (enterDraw64 Config.params s) = exec .draw64 s)

/-- spec/40_draw.md R101: the stream for a zero seed is the stream for `DEFSEED_W`, every handle value included. -/
def Obligations.ZeroSeedStreamIsDefaultStream : Prop :=
  (∀ (s : State) (h h' : Word64) (hs : List Word64), AtRest s → s.e32.idx.toNat = 625 →
    h.extractLsb' 0 32 = 0#32 → h'.extractLsb' 0 32 = Config.e32.defSeed →
    outputs s (draws32 (h :: hs)) = outputs s (draws32 (h' :: hs))) ∧
  ∀ (s : State) (hs : List Word64), AtRest s → s.e64.idx.toNat = 313 →
    outputs s (draws64 (0#64 :: hs)) = outputs s (draws64 (Config.e64.defSeed :: hs))

/-- spec/40_draw.md R98: the responses of one engine are a function of the width and the first handle alone. Two resting
machines with that engine uninitialized, and two command sequences with equally many draws of the width and the same first
seed, give the same responses of that width, whatever the later handles, the other engine's commands and state, and the
faulting commands are. -/
def Obligations.StreamIsFunctionOfFirstSeed : Prop :=
  (∀ (s s' : State) (cs cs' : List (Byte × Word64)), AtRest s → AtRest s' →
    s.e32.idx.toNat = 625 → s'.e32.idx.toNat = 625 →
    (cs.filter (·.1 = 0x20#8)).length = (cs'.filter (·.1 = 0x20#8)).length →
    (cs.filter (·.1 = 0x20#8)).head?.map (handleIn32 ·.2) = (cs'.filter (·.1 = 0x20#8)).head?.map (handleIn32 ·.2) →
    (outputs s cs).filter (·.1 = 0x20#8) = (outputs s' cs').filter (·.1 = 0x20#8)) ∧
  ∀ (s s' : State) (cs cs' : List (Byte × Word64)), AtRest s → AtRest s' →
    s.e64.idx.toNat = 313 → s'.e64.idx.toNat = 313 →
    (cs.filter (·.1 = 0x40#8)).length = (cs'.filter (·.1 = 0x40#8)).length →
    (cs.filter (·.1 = 0x40#8)).head?.map (handleIn64 ·.2) = (cs'.filter (·.1 = 0x40#8)).head?.map (handleIn64 ·.2) →
    (outputs s cs).filter (·.1 = 0x40#8) = (outputs s' cs').filter (·.1 = 0x40#8)

/-- spec/40_draw.md R100: interleaved with any other commands, each engine gives the sequence it gives alone. -/
def Obligations.EnginesAreIndependent : Prop :=
  ∀ (s : State) (cs : List (Byte × Word64)), AtRest s →
    (outputs s cs).filter (·.1 = 0x20#8) = outputs s (cs.filter (·.1 = 0x20#8)) ∧
    (outputs s cs).filter (·.1 = 0x40#8) = outputs s (cs.filter (·.1 = 0x40#8))

/-- spec/40_draw.md R97: after `j ≥ 1` draws from reset the cursor is `((j - 1) mod N) + 1` and the engine has regenerated
`ceil(j / N)` times (counted by `regenCount`, modulo `2^32`), so the `j`-th draw regenerates exactly when
`(j - 1) mod N = 0`. Rests on the cursor after seeding (log 14). -/
def Obligations.CursorAndRegenerationsAfterDraws : Prop :=
  (∀ hs : List Word64, hs ≠ [] →
    ∃ t, stateAfter State.reset (draws32 hs) = .next t ∧
      t.e32.idx.toNat = (hs.length - 1) % 624 + 1 ∧
      t.e32.regenCount = BitVec.ofNat 32 ((hs.length + 623) / 624)) ∧
  ∀ hs : List Word64, hs ≠ [] →
    ∃ t, stateAfter State.reset (draws64 hs) = .next t ∧
      t.e64.idx.toNat = (hs.length - 1) % 312 + 1 ∧
      t.e64.regenCount = BitVec.ofNat 32 ((hs.length + 311) / 312)

/-- spec/40_draw.md R102: the closed formula of the stream. `e0` is any engine whose array is the one SEED writes for the first
handle; draw `j` (counted from 0) emits word `j mod N` of batch `j / N + 1`, tempered and converted. -/
def Obligations.StreamClosedFormula : Prop :=
  (∀ (h : Word64) (hs : List Word64) (e0 : Engine 32 10) (j : Nat),
    (∀ k, k < 624 → memRead e0.mt k = seedWord32 (firstSeed (h.extractLsb' 0 32)) k) → j < (h :: hs).length →
    (outputs State.reset (draws32 (h :: hs)))[j]? =
      let y := temper Config.e32 (memRead (batch Config.e32 (j / 624 + 1) e0).mt (j % 624))
      some (0x20#8, some { fault := .noFault, handle := y.zeroExtend 64, result := some (bits64 (cvt .castThenDivide y)) })) ∧
  ∀ (h : Word64) (hs : List Word64) (e0 : Engine 64 9) (j : Nat),
    (∀ k, k < 312 → memRead e0.mt k = seedWord64 (firstSeed h) k) → j < (h :: hs).length →
    (outputs State.reset (draws64 (h :: hs)))[j]? =
      let y := temper Config.e64 (memRead (batch Config.e64 (j / 312 + 1) e0).mt (j % 312))
      some (0x40#8, some { fault := .noFault, handle := y, result := some (bits64 (cvt .castThenDivide y)) })

/-- spec/30_encoding.md R70, spec/70_reset_and_hazards.md R207, R208: a resting machine answers every command the host has
queued with exactly one response, in order, one step a command, and is at rest again at the end; no command stops it. -/
def Obligations.EveryQueuedCommandIsAnswered : Prop :=
  ∀ (s : State) (cs : List (Byte × Word64)), AtRest s →
    ∃ t : State,
      Host.Core.run core cs.length { s with host := cs.map fun c => HostEvent.command c.1 c.2 } = .next t ∧
      t.host = [] ∧ AtRest t ∧ (outputs s cs).length = cs.length ∧
      t.responses.map some = ((outputs s cs).map Prod.snd).reverse ++ s.responses.map some

/-! ### Seeding -/

/-- `SEED32` (spec/41_seed.md R110, R111, R113) completes in every state: it writes all 624 words from the latched handle, zero
coerced, sets the cursor to 624, and changes nothing else but the loop index (log 1, 7, 14). -/
def Obligations.Seed32Result : Prop :=
  ∀ s : State, ∃ m : Mem 32,
    exec .seed32 s = .next { s with e32 := { s.e32 with mt := m, idx := 624#10, k := 623#10 } } ∧
    (∀ k, k < 624 → memLookup m k = some (seedWord32 (firstSeed (s.hIn.extractLsb' 0 32)) k)) ∧
    ∀ k, 624 ≤ k → memLookup m k = memLookup s.e32.mt k

/-- `SEED64` (spec/41_seed.md R110, R112, R113) completes in every state, as `Seed32Result`; `lcg` is left after 624 steps (log 1, 7, 14). -/
def Obligations.Seed64Result : Prop :=
  ∀ s : State, ∃ m : Mem 64,
    exec .seed64 s = .next { s with
      e64 := { s.e64 with mt := m, idx := 312#9, k := 311#9 }
      lcg := seedRunning64 (firstSeed s.hIn) 624 } ∧
    (∀ k, k < 312 → memLookup m k = some (seedWord64 (firstSeed s.hIn) k)) ∧
    ∀ k, 312 ≤ k → memLookup m k = memLookup s.e64.mt k

/-- spec/41_seed.md R114, spec/10_state.md R33: seeding does not read the array. Whatever words the array held, or did not hold,
the state after it is the same. -/
def Obligations.SeedingReadsNoArray : Prop :=
  (∀ (s : State) (m m' : Mem 32), Mem.wf 624 m → Mem.wf 624 m' →
    exec .seed32 { s with e32 := { s.e32 with mt := m } } = exec .seed32 { s with e32 := { s.e32 with mt := m' } }) ∧
  ∀ (s : State) (m m' : Mem 64), Mem.wf 312 m → Mem.wf 312 m' →
    exec .seed64 { s with e64 := { s.e64 with mt := m } } = exec .seed64 { s with e64 := { s.e64 with mt := m' } }

/-- spec/41_seed.md R111 corner case (b): SEED32 leaves no word zero, whatever the handle; and the seed `0x80000000` makes every
word `0x80000000`. -/
def Obligations.SeededArrayHasNoZeroWord : Prop :=
  ∀ s : State, ∃ t, exec .seed32 s = .next t ∧ ∀ k, k < 624 →
    memRead t.e32.mt k ≠ 0#32 ∧ (s.hIn.extractLsb' 0 32 = 0x80000000#32 → memRead t.e32.mt k = 0x80000000#32)

/-! ### Regeneration -/

/-- `REGEN32` (spec/42_regen.md R128, R132) completes in every state: the in-place pass over the 624 words, the cursor 0, the
counter one more, and nothing else but the working registers `k` and `yc` (log 1, 7, 8). -/
def Obligations.Regen32Result : Prop :=
  ∀ s : State, ∃ m : Mem 32,
    exec .regen32 s = .next { s with e32 := { s.e32 with
      mt := m
      idx := 0#10
      regenCount := s.e32.regenCount + 1#32
      k := 623#10
      yc := combine Config.e32 (memRead s.e32.mt 623) (memRead m 0) } } ∧
    InPlacePass Config.e32 (memRead s.e32.mt) (memRead m) ∧
    ∀ k, 624 ≤ k → memLookup m k = memLookup s.e32.mt k

/-- `REGEN64` (spec/42_regen.md R129, R132), as `Regen32Result`. -/
def Obligations.Regen64Result : Prop :=
  ∀ s : State, ∃ m : Mem 64,
    exec .regen64 s = .next { s with e64 := { s.e64 with
      mt := m
      idx := 0#9
      regenCount := s.e64.regenCount + 1#32
      k := 311#9
      yc := combine Config.e64 (memRead s.e64.mt 311) (memRead m 0) } } ∧
    InPlacePass Config.e64 (memRead s.e64.mt) (memRead m) ∧
    ∀ k, 312 ≤ k → memLookup m k = memLookup s.e64.mt k

/-- spec/42_regen.md R130 (which the spec marks as general knowledge): the pass is in place and ascending, for every parameter record of spec/00_scope.md R10 that has a lag
(R8: one or three). -/
def Obligations.RegenerationIsInPlace : Prop :=
  ∀ (w cw : Nat) (p : EngineParams w) (e : Engine w cw), p.wf → p.lags ≠ [] →
    InPlacePass p (memRead e.mt) (memRead (regen p e).mt)

/-- spec/42_regen.md R131: the forms of R128 and R129 by index ranges are exactly the modulo form, for every parameter record of
spec/00_scope.md R10, and every index so formed is below `N`. -/
def Obligations.RangesAgreeWithModuloForm : Prop :=
  (∀ (w cw : Nat) (p : EngineParams w) (lag : Nat) (e : Engine w cw), p.wf → p.lags = [lag] →
    (regen p e).mt = regenRanges32 p lag e.mt ∧
    (∀ k, k < p.n - lag → k + lag < p.n) ∧ (∀ k, p.n - lag ≤ k → k < p.n - 1 → k + lag - p.n < p.n ∧ k + 1 < p.n) ∧
    lag - 1 < p.n) ∧
  ∀ (w cw : Nat) (p : EngineParams w) (lag0 lag1 lag2 : Nat) (e : Engine w cw), p.wf → p.lags = [lag0, lag1, lag2] →
    (regen p e).mt = regenRanges64 p lag0 lag1 lag2 e.mt ∧
    (∀ k, k < p.n - lag2 → k + lag0 < p.n ∧ k + lag1 < p.n ∧ k + lag2 < p.n) ∧
    (∀ k, p.n - lag2 ≤ k → k < p.n - lag1 → k + lag0 < p.n ∧ k + lag1 < p.n ∧ k + lag2 - p.n < p.n) ∧
    (∀ k, p.n - lag1 ≤ k → k < p.n - lag0 → k + lag0 < p.n ∧ k + lag1 - p.n < p.n ∧ k + lag2 - p.n < p.n) ∧
    (∀ k, p.n - lag0 ≤ k → k < p.n - 1 →
      k + 1 < p.n ∧ k + lag0 - p.n < p.n ∧ k + lag1 - p.n < p.n ∧ k + lag2 - p.n < p.n) ∧
    lag0 - 1 < p.n ∧ lag1 - 1 < p.n ∧ lag2 - 1 < p.n

/-- spec/42_regen.md R134: the batches written one after another are one sequence `x`, and
`x (m + N) = FEED (COMBINE (x m) (x (m + 1)))` exclusive-ORed with `x (m + L)` for every lag `L`, for every `m`. -/
def Obligations.BatchesFormOneRecurrence : Prop :=
  ∀ (w cw : Nat) (p : EngineParams w) (e : Engine w cw), p.wf → p.lags ≠ [] →
    let x : Nat → BitVec w := fun m => memRead (batch p (m / p.n) e).mt (m % p.n)
    ∀ m, x (m + p.n) = p.lags.foldl (fun acc lag => acc ^^^ x (m + lag)) (feed p (combine p (x m) (x (m + 1))))

/-- spec/42_regen.md R134, R127: with `MAG[0] = 0` the regeneration is linear over GF(2): it takes the word-wise exclusive OR of
two arrays to the word-wise exclusive OR of their regenerations; so (R128 corner case (c)) the all-zero array stays all
zero. -/
def Obligations.RegenerationIsLinear : Prop :=
  ∀ (w cw : Nat) (p : EngineParams w), p.wf → p.mag0 = 0#w →
    (∀ a b c : Engine w cw, (∀ k, k < p.n → memRead c.mt k = memRead a.mt k ^^^ memRead b.mt k) →
      ∀ k, k < p.n → memRead (regen p c).mt k = memRead (regen p a).mt k ^^^ memRead (regen p b).mt k) ∧
    ∀ a : Engine w cw, (∀ k, k < p.n → memRead a.mt k = 0#w) → ∀ k, k < p.n → memRead (regen p a).mt k = 0#w

/-- spec/42_regen.md R126: the bits of `COMBINE_W(a, b)`, for every split `R`; both widths have `R = 31`. -/
def Obligations.CombineSplitsAtR : Prop :=
  (∀ (w : Nat) (p : EngineParams w) (a b : BitVec w), p.wf → ∀ i, i < w →
    (combine p a b).getLsbD i = if i < p.r then b.getLsbD i else a.getLsbD i) ∧
  Config.e32.r = 31 ∧ Config.e64.r = 31

/-! ### Emission -/

/-- `EMIT32` (spec/43_emit.md R145, R146, R148, R149, R150) completes under its precondition: it reads the word at the cursor,
advances the cursor by one, answers the tempered word as the handle and its conversion as the result, and leaves the array
and everything else alone but for the working registers `raw` and `y` (log 1, 7, 13, 15). -/
def Obligations.Emit32Result : Prop :=
  ∀ s : State, s.e32.idx.toNat < 624 →
    let raw := memRead s.e32.mt s.e32.idx.toNat
    let y1 := raw ^^^ (raw >>> 11)
    let y2 := y1 ^^^ ((y1 <<< 7) &&& 0x9D2C5680#32)
    let y3 := y2 ^^^ ((y2 <<< 15) &&& 0xEFC60000#32)
    let y := y3 ^^^ (y3 >>> 18)
    exec .emit32 s = .next { s with
      e32 := { s.e32 with idx := s.e32.idx + 1#10, raw := raw, y := y }
      responses := { fault := .noFault, handle := y.zeroExtend 64, result := some (bits64 (cvt .castThenDivide y)) } ::
        s.responses } ∧
    (s.e32.idx + 1#10).toNat = s.e32.idx.toNat + 1

/-- `EMIT64` (spec/43_emit.md R145, R147, R148, R149, R151), as `Emit32Result`. -/
def Obligations.Emit64Result : Prop :=
  ∀ s : State, s.e64.idx.toNat < 312 →
    let raw := memRead s.e64.mt s.e64.idx.toNat
    let y1 := raw ^^^ (raw >>> 26)
    let y2 := y1 ^^^ ((y1 <<< 17) &&& 0x599CFCBFCA660000#64)
    let y3 := y2 ^^^ ((y2 <<< 33) &&& 0xFFFAAFFE00000000#64)
    let y := y3 ^^^ (y3 >>> 39)
    exec .emit64 s = .next { s with
      e64 := { s.e64 with idx := s.e64.idx + 1#9, raw := raw, y := y }
      responses := { fault := .noFault, handle := y, result := some (bits64 (cvt .castThenDivide y)) } :: s.responses } ∧
    (s.e64.idx + 1#9).toNat = s.e64.idx.toNat + 1

/-- spec/43_emit.md R148: an emission advances the cursor by one, to a value in `[1, N]`; there is no wrap. -/
def Obligations.EmissionAdvancesCursor : Prop :=
  (∀ s : State, s.e32.idx.toNat < 624 → ∃ t, exec .emit32 s = .next t ∧
    t.e32.idx.toNat = s.e32.idx.toNat + 1 ∧ 1 ≤ t.e32.idx.toNat ∧ t.e32.idx.toNat ≤ 624) ∧
  ∀ s : State, s.e64.idx.toNat < 312 → ∃ t, exec .emit64 s = .next t ∧
    t.e64.idx.toNat = s.e64.idx.toNat + 1 ∧ 1 ≤ t.e64.idx.toNat ∧ t.e64.idx.toNat ≤ 312

/-- The MODEL'S choice (log 9) where the precondition of spec/43_emit.md R145 is violated, which no rule reaches: EMIT stops. -/
def Obligations.EmitStopsWithoutReadyWord : Prop :=
  (∀ s : State, 624 ≤ s.e32.idx.toNat → exec .emit32 s = .fault .emitPreconditionViolated) ∧
  ∀ s : State, 312 ≤ s.e64.idx.toNat → exec .emit64 s = .fault .emitPreconditionViolated

/-- spec/43_emit.md R154: tempering is a bijection for every parameter record of spec/00_scope.md R10, and fixes 0. -/
def Obligations.TemperingIsBijective : Prop :=
  ∀ (w : Nat) (p : EngineParams w), p.wf → Function.Bijective (temper p) ∧ temper p 0#w = 0#w

/-! ### Conversion -/

/-- spec/00_scope.md R15: `f64OfRat` is the correctly rounded binary64 quotient (exponent unbounded): it has 53 significant bits,
no number with at most 53 significant bits is nearer, and if another one is as near, the even one was taken. -/
def Obligations.RoundingIsNearestEven : Prop :=
  ∀ a b : Nat, 0 < a → 0 < b →
    2 ^ 52 ≤ (f64OfRat a b).mant ∧ (f64OfRat a b).mant < 2 ^ 53 ∧
    ∀ u : F64, u.mant < 2 ^ 53 →
      |(a : Rat) / b - (f64OfRat a b).value| ≤ |(a : Rat) / b - u.value| ∧
      (|(a : Rat) / b - (f64OfRat a b).value| = |(a : Rat) / b - u.value| → u.value ≠ (f64OfRat a b).value →
        (f64OfRat a b).mant % 2 = 0)

/-- spec/43_emit.md R150: on E32 both conversions are exact, so `CVT32(y)` is the binary64 number nearest to
`y / (2^32 - 1)`: the two readings of the configuration agree. -/
def Obligations.Cvt32RoundsTheExactQuotient : Prop :=
  ∀ y : Word32, cvt .castThenDivide y = f64OfRat y.toNat (2 ^ 32 - 1)

/-- spec/43_emit.md R151: `CVT64(y) = f64(y) * 2^-64`, exactly. -/
def Obligations.Cvt64ScalesTheRoundedInteger : Prop :=
  ∀ y : Word64, (cvt .castThenDivide y).value = (f64OfNat y.toNat).value / 2 ^ 64

/-- spec/43_emit.md R152: the result is in `[0, 1]`; when it is 0, when it is exactly 1, and that it is strictly between
otherwise, for both widths. -/
def Obligations.ResultRange : Prop :=
  (∀ y : Word32,
    0 ≤ (cvt .castThenDivide y).value ∧ (cvt .castThenDivide y).value ≤ 1 ∧
    ((cvt .castThenDivide y).value = 0 ↔ y = 0#32) ∧ ((cvt .castThenDivide y).value = 1 ↔ y = 0xFFFFFFFF#32)) ∧
  ∀ y : Word64,
    0 ≤ (cvt .castThenDivide y).value ∧ (cvt .castThenDivide y).value ≤ 1 ∧
    ((cvt .castThenDivide y).value = 0 ↔ y = 0#64) ∧
    ((cvt .castThenDivide y).value = 1 ↔ 0xFFFFFFFFFFFFFC00 ≤ y.toNat)

/-- spec/43_emit.md R153, spec/00_scope.md R15: the pattern of a result is `+0.0` for `y = 0` and otherwise that of a normal
binary64 number: sign 0, exponent field in `[1, 1023]`, and the number it encodes is the result. -/
def Obligations.ResultPatternIsNormal : Prop :=
  ∀ w : Nat, w = 32 ∨ w = 64 → ∀ y : BitVec w,
    let x := cvt .castThenDivide y
    let b := bits64 x
    (y = 0#w → b = 0#64) ∧
    (y ≠ 0#w →
      b.getLsbD 63 = false ∧ 1 ≤ (b.extractLsb' 52 11).toNat ∧ (b.extractLsb' 52 11).toNat ≤ 1023 ∧
      x.value = ((2 ^ 52 + (b.extractLsb' 0 52).toNat : Nat) : Rat) * (2 : Rat) ^ ((b.extractLsb' 52 11).toNat - 1075 : Int))

/-- spec/43_emit.md R150, R151: `CVT32` is strictly increasing, `CVT64` is non-decreasing. -/
def Obligations.ConversionIsMonotone : Prop :=
  (∀ y z : Word32, y.toNat < z.toNat → (cvt .castThenDivide y).value < (cvt .castThenDivide z).value) ∧
  ∀ y z : Word64, y.toNat ≤ z.toNat → (cvt .castThenDivide y).value ≤ (cvt .castThenDivide z).value

/-! ### Faults -/

/-- spec/60_exceptions.md R172, R173 (with R171 and spec/30_encoding.md R75, R81): a reserved command answers fault code 1 with
the offending width, the handle unchanged and no result, and changes nothing else at all. -/
def Obligations.ReservedCommandFaults : Prop :=
  ∀ (s : State) (w : Byte), w ≠ 0x20#8 → w ≠ 0x40#8 →
    exec (.reserved w) s = .next { s with
      responses := { fault := .widthUnsupported w, handle := s.cmdHandle, result := none } :: s.responses } ∧
    faultCode (.widthUnsupported w) = 1#2

/-- spec/60_exceptions.md R170: the one fault. An instruction answers it exactly if it is a reserved command, and then with its
own width; a command that is presented to a resting machine gets it exactly if its width is neither 32 nor 64. -/
def Obligations.OnlyReservedWidthsFault : Prop :=
  (∀ (i : Instr) (s t : State), exec i s = .next t →
    (t.responses = s.responses ∧ ∀ w, i ≠ .reserved w) ∨
    ∃ r, t.responses = r :: s.responses ∧ ∀ w, r.fault = .widthUnsupported w ↔ i = .reserved w) ∧
  ∀ (s : State) (w : Byte) (h : Word64), AtRest s →
    ∃ t r, present s (w, h) = .next t ∧ t.responses = r :: s.responses ∧
      (r.fault = .noFault ↔ w.toNat = 32 ∨ w.toNat = 64) ∧
      (r.fault = .widthUnsupported w ↔ w.toNat ≠ 32 ∧ w.toNat ≠ 64)

/-- spec/60_exceptions.md R172, R178: after a faulting command every later command behaves exactly as if it had never been
sent. -/
def Obligations.FaultLeavesNoTrace : Prop :=
  ∀ (s : State) (w : Byte) (h : Word64) (cs : List (Byte × Word64)), AtRest s → w ≠ 0x20#8 → w ≠ 0x40#8 →
    outputs s ((w, h) :: cs) = (w, some { fault := .widthUnsupported w, handle := h, result := none }) :: outputs s cs

/-! ### The whole machine -/

/-- spec/10_state.md R36 holds at reset. -/
def Obligations.ResetIsLegal : Prop := AtRest State.reset

/-- spec/10_state.md R36 as an invariant of every step from every legal state, the states inside a command included. -/
def Obligations.StepKeepsLegalStates : Prop :=
  ∀ s t : State, Inv s → step s = .next t → Inv t

/-- spec/60_exceptions.md R170, R174, spec/20_memory.md R55: from a legal state no step stops. -/
def Obligations.LegalStatesNeverStop : Prop :=
  ∀ s : State, Inv s → ∃ t, step s = .next t

/-- spec/20_memory.md R50, R64: an instruction of one engine leaves the other engine alone; RESERVED and IDLE leave both; and no
instruction touches the port registers or the host's events. -/
def Obligations.InstructionsTouchOneEngine : Prop :=
  ∀ (i : Instr) (s t : State), exec i s = .next t →
    (i ∈ [Instr.draw32, .seed32, .regen32, .emit32] → t.e64 = s.e64 ∧ t.lcg = s.lcg) ∧
    (i ∈ [Instr.draw64, .seed64, .regen64, .emit64] → t.e32 = s.e32) ∧
    ((∃ w, i = .reserved w) ∨ (∃ sel, i = .idle sel) → t.e32 = s.e32 ∧ t.e64 = s.e64 ∧ t.lcg = s.lcg) ∧
    t.cmdWidth = s.cmdWidth ∧ t.cmdHandle = s.cmdHandle ∧ t.host = s.host

/-- spec/10_state.md R22: an array is written only by SEED and by REGEN, alone or inside a draw that finds the cursor at `N` or
`N + 1`. -/
def Obligations.ArrayWrittenOnlyBySeedAndRegen : Prop :=
  ∀ (i : Instr) (s t : State), exec i s = .next t →
    (t.e32.mt ≠ s.e32.mt → i = .seed32 ∨ i = .regen32 ∨ (i = .draw32 ∧ 624 ≤ s.e32.idx.toNat)) ∧
    (t.e64.mt ≠ s.e64.mt → i = .seed64 ∨ i = .regen64 ∨ (i = .draw64 ∧ 312 ≤ s.e64.idx.toNat))

/-- spec/10_state.md R34: no instruction returns an initialized engine to the uninitialized state, and no command re-seeds an
initialized engine: after it the array is what it was, or the regeneration of what it was. -/
def Obligations.NoCommandReseeds : Prop :=
  (∀ (i : Instr) (s t : State), exec i s = .next t →
    (s.e32.idx.toNat ≤ 624 → t.e32.idx.toNat ≤ 624) ∧ (s.e64.idx.toNat ≤ 312 → t.e64.idx.toNat ≤ 312)) ∧
  ∀ (s : State) (c : Byte × Word64), AtRest s → ∃ t, present s c = .next t ∧
    (s.e32.idx.toNat ≤ 624 → t.e32.mt = s.e32.mt ∨ t.e32.mt = (regen Config.e32 s.e32).mt) ∧
    (s.e64.idx.toNat ≤ 312 → t.e64.mt = s.e64.mt ∨ t.e64.mt = (regen Config.e64 s.e64).mt)

/-- spec/10_state.md R25: for a cursor of R23 exactly one of the three flags holds, and each is the test of the cursor that the
rule gives. -/
def Obligations.ExactlyOneFlag : Prop :=
  ∀ (w cw : Nat) (p : EngineParams w) (e : Engine w cw), e.idx.toNat ≤ p.n + 1 →
    (uninit p e = true ↔ e.idx.toNat = p.n + 1) ∧ (exhausted p e = true ↔ e.idx.toNat = p.n) ∧
    (ready p e = true ↔ e.idx.toNat < p.n) ∧
    ((uninit p e = true ∧ exhausted p e = false ∧ ready p e = false) ∨
     (uninit p e = false ∧ exhausted p e = true ∧ ready p e = false) ∨
     (uninit p e = false ∧ exhausted p e = false ∧ ready p e = true))

/-- spec/00_scope.md R10: the parameter record that `exec` runs satisfies the constraints, with the sizes of R8. -/
def Obligations.ParametersSatisfyConstraints : Prop := Config.params.wf

/-- spec/30_encoding.md R79 through the MODEL'S choice of a host (log 21): the host stores the response's handle in its
variable when there is no fault, and keeps the variable on a fault. The model's own in it: the variables are one list of
64-bit values, all 64 bits of `rsp_handle` are stored where R79 stores `rsp_handle[W-1:0]`, and a variable the list does not
hold stores nothing. -/
def Obligations.HostStoresHandleUnlessFault : Prop :=
  ∀ (hb : HostedBlock) (w : Byte) (var : Nat), AtRest hb.block →
    ∃ hb' r, runLine hb (.draw w var) = .next hb' ∧ hb'.block.responses.head? = some r ∧
      hb'.handles = if w = 0x20#8 ∨ w = 0x40#8 then hb.handles.set var r.handle else hb.handles
end

