-- ==== Sys2Proof/Laws/State.lean ====
section
/-! SUPPORT. One lemma per field per update of State and of Engine, each true by rfl, so that no proof unfolds a record
update. -/

namespace Sys2Proof.Machine

@[simp] theorem respond_e32 (r : Response) (s : State) : (respond r s).e32 = s.e32 := rfl
@[simp] theorem respond_e64 (r : Response) (s : State) : (respond r s).e64 = s.e64 := rfl
@[simp] theorem respond_phase (r : Response) (s : State) : (respond r s).phase = s.phase := rfl
@[simp] theorem respond_sel (r : Response) (s : State) : (respond r s).sel = s.sel := rfl
@[simp] theorem respond_hIn (r : Response) (s : State) : (respond r s).hIn = s.hIn := rfl
@[simp] theorem respond_lcg (r : Response) (s : State) : (respond r s).lcg = s.lcg := rfl
@[simp] theorem respond_cmdWidth (r : Response) (s : State) : (respond r s).cmdWidth = s.cmdWidth := rfl
@[simp] theorem respond_cmdHandle (r : Response) (s : State) : (respond r s).cmdHandle = s.cmdHandle := rfl
@[simp] theorem respond_host (r : Response) (s : State) : (respond r s).host = s.host := rfl
@[simp] theorem respond_responses (r : Response) (s : State) : (respond r s).responses = r :: s.responses := rfl

@[simp] theorem takeFault_e32 (w : Byte) (s : State) : (takeFault w s).e32 = s.e32 := rfl
@[simp] theorem takeFault_e64 (w : Byte) (s : State) : (takeFault w s).e64 = s.e64 := rfl
@[simp] theorem takeFault_phase (w : Byte) (s : State) : (takeFault w s).phase = s.phase := rfl
@[simp] theorem takeFault_sel (w : Byte) (s : State) : (takeFault w s).sel = s.sel := rfl
@[simp] theorem takeFault_hIn (w : Byte) (s : State) : (takeFault w s).hIn = s.hIn := rfl
@[simp] theorem takeFault_lcg (w : Byte) (s : State) : (takeFault w s).lcg = s.lcg := rfl
@[simp] theorem takeFault_cmdWidth (w : Byte) (s : State) : (takeFault w s).cmdWidth = s.cmdWidth := rfl
@[simp] theorem takeFault_cmdHandle (w : Byte) (s : State) : (takeFault w s).cmdHandle = s.cmdHandle := rfl
@[simp] theorem takeFault_host (w : Byte) (s : State) : (takeFault w s).host = s.host := rfl
@[simp] theorem takeFault_responses (w : Byte) (s : State) : (takeFault w s).responses = faultResponse w s.cmdHandle :: s.responses := rfl

@[simp] theorem resetEvent_e32 (s : State) : (resetEvent s).e32 = State.reset.e32 := rfl
@[simp] theorem resetEvent_e64 (s : State) : (resetEvent s).e64 = State.reset.e64 := rfl
@[simp] theorem resetEvent_phase (s : State) : (resetEvent s).phase = State.reset.phase := rfl
@[simp] theorem resetEvent_sel (s : State) : (resetEvent s).sel = State.reset.sel := rfl
@[simp] theorem resetEvent_hIn (s : State) : (resetEvent s).hIn = State.reset.hIn := rfl
@[simp] theorem resetEvent_lcg (s : State) : (resetEvent s).lcg = State.reset.lcg := rfl
@[simp] theorem resetEvent_cmdWidth (s : State) : (resetEvent s).cmdWidth = State.reset.cmdWidth := rfl
@[simp] theorem resetEvent_cmdHandle (s : State) : (resetEvent s).cmdHandle = State.reset.cmdHandle := rfl
@[simp] theorem resetEvent_host (s : State) : (resetEvent s).host = s.host := rfl
@[simp] theorem resetEvent_responses (s : State) : (resetEvent s).responses = s.responses := rfl

@[simp] theorem acceptCommand_e32 (width : Byte) (handle : Word64) (rest : List HostEvent) (s : State) : (acceptCommand width handle rest s).e32 = s.e32 := rfl
@[simp] theorem acceptCommand_e64 (width : Byte) (handle : Word64) (rest : List HostEvent) (s : State) : (acceptCommand width handle rest s).e64 = s.e64 := rfl
@[simp] theorem acceptCommand_phase (width : Byte) (handle : Word64) (rest : List HostEvent) (s : State) : (acceptCommand width handle rest s).phase = s.phase := rfl
@[simp] theorem acceptCommand_sel (width : Byte) (handle : Word64) (rest : List HostEvent) (s : State) : (acceptCommand width handle rest s).sel = s.sel := rfl
@[simp] theorem acceptCommand_hIn (width : Byte) (handle : Word64) (rest : List HostEvent) (s : State) : (acceptCommand width handle rest s).hIn = s.hIn := rfl
@[simp] theorem acceptCommand_lcg (width : Byte) (handle : Word64) (rest : List HostEvent) (s : State) : (acceptCommand width handle rest s).lcg = s.lcg := rfl
@[simp] theorem acceptCommand_cmdWidth (width : Byte) (handle : Word64) (rest : List HostEvent) (s : State) : (acceptCommand width handle rest s).cmdWidth = width := rfl
@[simp] theorem acceptCommand_cmdHandle (width : Byte) (handle : Word64) (rest : List HostEvent) (s : State) : (acceptCommand width handle rest s).cmdHandle = handle := rfl
@[simp] theorem acceptCommand_host (width : Byte) (handle : Word64) (rest : List HostEvent) (s : State) : (acceptCommand width handle rest s).host = rest := rfl
@[simp] theorem acceptCommand_responses (width : Byte) (handle : Word64) (rest : List HostEvent) (s : State) : (acceptCommand width handle rest s).responses = s.responses := rfl

@[simp] theorem latch32_e32 (p : Params) (s : State) : (latch32 p s).e32 = s.e32 := rfl
@[simp] theorem latch32_e64 (p : Params) (s : State) : (latch32 p s).e64 = s.e64 := rfl
@[simp] theorem latch32_phase (p : Params) (s : State) : (latch32 p s).phase = s.phase := rfl
@[simp] theorem latch32_sel (p : Params) (s : State) : (latch32 p s).sel = .e32 := rfl
@[simp] theorem latch32_hIn (p : Params) (s : State) : (latch32 p s).hIn = if uninit p.e32 s.e32 then (handleIn32 s.cmdHandle).zeroExtend 64 else s.hIn := rfl
@[simp] theorem latch32_lcg (p : Params) (s : State) : (latch32 p s).lcg = s.lcg := rfl
@[simp] theorem latch32_cmdWidth (p : Params) (s : State) : (latch32 p s).cmdWidth = s.cmdWidth := rfl
@[simp] theorem latch32_cmdHandle (p : Params) (s : State) : (latch32 p s).cmdHandle = s.cmdHandle := rfl
@[simp] theorem latch32_host (p : Params) (s : State) : (latch32 p s).host = s.host := rfl
@[simp] theorem latch32_responses (p : Params) (s : State) : (latch32 p s).responses = s.responses := rfl

@[simp] theorem latch64_e32 (p : Params) (s : State) : (latch64 p s).e32 = s.e32 := rfl
@[simp] theorem latch64_e64 (p : Params) (s : State) : (latch64 p s).e64 = s.e64 := rfl
@[simp] theorem latch64_phase (p : Params) (s : State) : (latch64 p s).phase = s.phase := rfl
@[simp] theorem latch64_sel (p : Params) (s : State) : (latch64 p s).sel = .e64 := rfl
@[simp] theorem latch64_hIn (p : Params) (s : State) : (latch64 p s).hIn = if uninit p.e64 s.e64 then handleIn64 s.cmdHandle else s.hIn := rfl
@[simp] theorem latch64_lcg (p : Params) (s : State) : (latch64 p s).lcg = s.lcg := rfl
@[simp] theorem latch64_cmdWidth (p : Params) (s : State) : (latch64 p s).cmdWidth = s.cmdWidth := rfl
@[simp] theorem latch64_cmdHandle (p : Params) (s : State) : (latch64 p s).cmdHandle = s.cmdHandle := rfl
@[simp] theorem latch64_host (p : Params) (s : State) : (latch64 p s).host = s.host := rfl
@[simp] theorem latch64_responses (p : Params) (s : State) : (latch64 p s).responses = s.responses := rfl

@[simp] theorem seed32_e64 (p : Params) (s : State) : (seed32 p s).e64 = s.e64 := rfl
@[simp] theorem seed32_phase (p : Params) (s : State) : (seed32 p s).phase = s.phase := rfl
@[simp] theorem seed32_sel (p : Params) (s : State) : (seed32 p s).sel = s.sel := rfl
@[simp] theorem seed32_hIn (p : Params) (s : State) : (seed32 p s).hIn = s.hIn := rfl
@[simp] theorem seed32_lcg (p : Params) (s : State) : (seed32 p s).lcg = s.lcg := rfl
@[simp] theorem seed32_cmdWidth (p : Params) (s : State) : (seed32 p s).cmdWidth = s.cmdWidth := rfl
@[simp] theorem seed32_cmdHandle (p : Params) (s : State) : (seed32 p s).cmdHandle = s.cmdHandle := rfl
@[simp] theorem seed32_host (p : Params) (s : State) : (seed32 p s).host = s.host := rfl
@[simp] theorem seed32_responses (p : Params) (s : State) : (seed32 p s).responses = s.responses := rfl

@[simp] theorem seed64_e32 (p : Params) (s : State) : (seed64 p s).e32 = s.e32 := rfl
@[simp] theorem seed64_phase (p : Params) (s : State) : (seed64 p s).phase = s.phase := rfl
@[simp] theorem seed64_sel (p : Params) (s : State) : (seed64 p s).sel = s.sel := rfl
@[simp] theorem seed64_hIn (p : Params) (s : State) : (seed64 p s).hIn = s.hIn := rfl
@[simp] theorem seed64_cmdWidth (p : Params) (s : State) : (seed64 p s).cmdWidth = s.cmdWidth := rfl
@[simp] theorem seed64_cmdHandle (p : Params) (s : State) : (seed64 p s).cmdHandle = s.cmdHandle := rfl
@[simp] theorem seed64_host (p : Params) (s : State) : (seed64 p s).host = s.host := rfl
@[simp] theorem seed64_responses (p : Params) (s : State) : (seed64 p s).responses = s.responses := rfl

@[simp] theorem regen32_e32 (p : Params) (s : State) : (regen32 p s).e32 = regen p.e32 s.e32 := rfl
@[simp] theorem regen32_e64 (p : Params) (s : State) : (regen32 p s).e64 = s.e64 := rfl
@[simp] theorem regen32_phase (p : Params) (s : State) : (regen32 p s).phase = s.phase := rfl
@[simp] theorem regen32_sel (p : Params) (s : State) : (regen32 p s).sel = s.sel := rfl
@[simp] theorem regen32_hIn (p : Params) (s : State) : (regen32 p s).hIn = s.hIn := rfl
@[simp] theorem regen32_lcg (p : Params) (s : State) : (regen32 p s).lcg = s.lcg := rfl
@[simp] theorem regen32_cmdWidth (p : Params) (s : State) : (regen32 p s).cmdWidth = s.cmdWidth := rfl
@[simp] theorem regen32_cmdHandle (p : Params) (s : State) : (regen32 p s).cmdHandle = s.cmdHandle := rfl
@[simp] theorem regen32_host (p : Params) (s : State) : (regen32 p s).host = s.host := rfl
@[simp] theorem regen32_responses (p : Params) (s : State) : (regen32 p s).responses = s.responses := rfl

@[simp] theorem regen64_e32 (p : Params) (s : State) : (regen64 p s).e32 = s.e32 := rfl
@[simp] theorem regen64_e64 (p : Params) (s : State) : (regen64 p s).e64 = regen p.e64 s.e64 := rfl
@[simp] theorem regen64_phase (p : Params) (s : State) : (regen64 p s).phase = s.phase := rfl
@[simp] theorem regen64_sel (p : Params) (s : State) : (regen64 p s).sel = s.sel := rfl
@[simp] theorem regen64_hIn (p : Params) (s : State) : (regen64 p s).hIn = s.hIn := rfl
@[simp] theorem regen64_lcg (p : Params) (s : State) : (regen64 p s).lcg = s.lcg := rfl
@[simp] theorem regen64_cmdWidth (p : Params) (s : State) : (regen64 p s).cmdWidth = s.cmdWidth := rfl
@[simp] theorem regen64_cmdHandle (p : Params) (s : State) : (regen64 p s).cmdHandle = s.cmdHandle := rfl
@[simp] theorem regen64_host (p : Params) (s : State) : (regen64 p s).host = s.host := rfl
@[simp] theorem regen64_responses (p : Params) (s : State) : (regen64 p s).responses = s.responses := rfl

@[simp] theorem emitEngine_mt {w cw : Nat} (p : EngineParams w) (e : Engine w cw) : (emitEngine p e).mt = e.mt := rfl
@[simp] theorem emitEngine_idx {w cw : Nat} (p : EngineParams w) (e : Engine w cw) : (emitEngine p e).idx = e.idx + 1#cw := rfl
@[simp] theorem emitEngine_regenCount {w cw : Nat} (p : EngineParams w) (e : Engine w cw) : (emitEngine p e).regenCount = e.regenCount := rfl
@[simp] theorem emitEngine_k {w cw : Nat} (p : EngineParams w) (e : Engine w cw) : (emitEngine p e).k = e.k := rfl
@[simp] theorem emitEngine_yc {w cw : Nat} (p : EngineParams w) (e : Engine w cw) : (emitEngine p e).yc = e.yc := rfl
@[simp] theorem emitEngine_raw {w cw : Nat} (p : EngineParams w) (e : Engine w cw) : (emitEngine p e).raw = memRead e.mt e.idx.toNat := rfl
@[simp] theorem emitEngine_y {w cw : Nat} (p : EngineParams w) (e : Engine w cw) : (emitEngine p e).y = temper p (memRead e.mt e.idx.toNat) := rfl

@[simp] theorem regenStep_mt {w cw : Nat} (p : EngineParams w) (e : Engine w cw) (j : Nat) : (regenStep p e j).mt = memWrite e.mt j (regenWord p e.mt j) := rfl
@[simp] theorem regenStep_idx {w cw : Nat} (p : EngineParams w) (e : Engine w cw) (j : Nat) : (regenStep p e j).idx = e.idx := rfl
@[simp] theorem regenStep_regenCount {w cw : Nat} (p : EngineParams w) (e : Engine w cw) (j : Nat) : (regenStep p e j).regenCount = e.regenCount := rfl
@[simp] theorem regenStep_k {w cw : Nat} (p : EngineParams w) (e : Engine w cw) (j : Nat) : (regenStep p e j).k = BitVec.ofNat cw j := rfl
@[simp] theorem regenStep_yc {w cw : Nat} (p : EngineParams w) (e : Engine w cw) (j : Nat) : (regenStep p e j).yc = regenYc p e.mt j := rfl
@[simp] theorem regenStep_raw {w cw : Nat} (p : EngineParams w) (e : Engine w cw) (j : Nat) : (regenStep p e j).raw = e.raw := rfl
@[simp] theorem regenStep_y {w cw : Nat} (p : EngineParams w) (e : Engine w cw) (j : Nat) : (regenStep p e j).y = e.y := rfl

@[simp] theorem seedStep32_mt {w cw : Nat} (p : EngineParams w) (e : Engine w cw) (j : Nat) : (seedStep32 p e j).mt = memWrite e.mt j (seedLcg p (memRead e.mt (j - 1))) := rfl
@[simp] theorem seedStep32_idx {w cw : Nat} (p : EngineParams w) (e : Engine w cw) (j : Nat) : (seedStep32 p e j).idx = e.idx := rfl
@[simp] theorem seedStep32_regenCount {w cw : Nat} (p : EngineParams w) (e : Engine w cw) (j : Nat) : (seedStep32 p e j).regenCount = e.regenCount := rfl
@[simp] theorem seedStep32_k {w cw : Nat} (p : EngineParams w) (e : Engine w cw) (j : Nat) : (seedStep32 p e j).k = BitVec.ofNat cw j := rfl
@[simp] theorem seedStep32_yc {w cw : Nat} (p : EngineParams w) (e : Engine w cw) (j : Nat) : (seedStep32 p e j).yc = e.yc := rfl
@[simp] theorem seedStep32_raw {w cw : Nat} (p : EngineParams w) (e : Engine w cw) (j : Nat) : (seedStep32 p e j).raw = e.raw := rfl
@[simp] theorem seedStep32_y {w cw : Nat} (p : EngineParams w) (e : Engine w cw) (j : Nat) : (seedStep32 p e j).y = e.y := rfl

end Sys2Proof.Machine
end

