-- ==== Sys2Proof/Laws/Emit.lean ====
section
/-! SUPPORT. What an emission can do (spec/43_emit.md R145): next exactly when the cursor is below `N`. -/

namespace Sys2Proof.Machine

variable {w cw : Nat}

@[simp] theorem ready_iff (p : EngineParams w) (e : Engine w cw) : ready p e = true ↔ e.idx.toNat < p.n := by
  simp [ready]

@[simp] theorem exhausted_iff (p : EngineParams w) (e : Engine w cw) : exhausted p e = true ↔ e.idx.toNat = p.n := by
  simp [exhausted]

@[simp] theorem uninit_iff (p : EngineParams w) (e : Engine w cw) : uninit p e = true ↔ e.idx.toNat = p.n + 1 := by
  simp [uninit]

theorem emit32_next (p : Params) {s : State} (h : s.e32.idx.toNat < p.e32.n) :
    emit32 p s = .next (respond
      (emitResponse p (memRead s.e32.mt s.e32.idx.toNat) (temper p.e32 (memRead s.e32.mt s.e32.idx.toNat)))
      { s with e32 := emitEngine p.e32 s.e32 }) := by
  simp [emit32, h]

theorem emit64_next (p : Params) {s : State} (h : s.e64.idx.toNat < p.e64.n) :
    emit64 p s = .next (respond
      (emitResponse p (memRead s.e64.mt s.e64.idx.toNat) (temper p.e64 (memRead s.e64.mt s.e64.idx.toNat)))
      { s with e64 := emitEngine p.e64 s.e64 }) := by
  simp [emit64, h]

theorem emit32_stops (p : Params) {s : State} (h : p.e32.n ≤ s.e32.idx.toNat) :
    emit32 p s = .fault .emitPreconditionViolated := by
  simp [emit32, Nat.not_lt.2 h]

theorem emit64_stops (p : Params) {s : State} (h : p.e64.n ≤ s.e64.idx.toNat) :
    emit64 p s = .fault .emitPreconditionViolated := by
  simp [emit64, Nat.not_lt.2 h]

/-- If EMIT32 answers a next state, the precondition held and the state is the one of the rule. -/
theorem emit32_cases {p : Params} {s t : State} (h : emit32 p s = .next t) :
    s.e32.idx.toNat < p.e32.n ∧
    t = respond
      (emitResponse p (memRead s.e32.mt s.e32.idx.toNat) (temper p.e32 (memRead s.e32.mt s.e32.idx.toNat)))
      { s with e32 := emitEngine p.e32 s.e32 } := by
  by_cases hr : s.e32.idx.toNat < p.e32.n
  · rw [emit32_next p hr] at h
    cases h
    exact ⟨hr, rfl⟩
  · rw [emit32_stops p (by omega)] at h
    cases h

theorem emit64_cases {p : Params} {s t : State} (h : emit64 p s = .next t) :
    s.e64.idx.toNat < p.e64.n ∧
    t = respond
      (emitResponse p (memRead s.e64.mt s.e64.idx.toNat) (temper p.e64 (memRead s.e64.mt s.e64.idx.toNat)))
      { s with e64 := emitEngine p.e64 s.e64 } := by
  by_cases hr : s.e64.idx.toNat < p.e64.n
  · rw [emit64_next p hr] at h
    cases h
    exact ⟨hr, rfl⟩
  · rw [emit64_stops p (by omega)] at h
    cases h

@[simp] theorem drawResponse_fault (h : BitVec w) (r : Word64) : (drawResponse h r).fault = .noFault := rfl
@[simp] theorem drawResponse_handle (h : BitVec w) (r : Word64) : (drawResponse h r).handle = h.zeroExtend 64 := rfl
@[simp] theorem drawResponse_result (h : BitVec w) (r : Word64) : (drawResponse h r).result = some r := rfl
@[simp] theorem faultResponse_fault (b : Byte) (h : Word64) : (faultResponse b h).fault = .widthUnsupported b := rfl
@[simp] theorem faultResponse_handle (b : Byte) (h : Word64) : (faultResponse b h).handle = h := rfl
@[simp] theorem faultResponse_result (b : Byte) (h : Word64) : (faultResponse b h).result = none := rfl

end Sys2Proof.Machine
end

