-- ==== Sys2Proof/Laws/Memory.lean ====
section
/-! SUPPORT. The laws of the word memories (spec/20_memory.md R51, R56): a read after a write, a write leaves every other
word alone and keeps the canonical form, and two canonical memories that hold the same words are equal. -/

namespace Sys2Proof.Machine

variable {w : Nat}

@[simp] theorem memLookup_nil (i : Nat) : memLookup ([] : Mem w) i = none := rfl

theorem memLookup_cons (a : Nat) (v : BitVec w) (m : Mem w) (i : Nat) :
    memLookup ((a, v) :: m) i = if a = i then some v else memLookup m i := rfl

theorem memLookup_memWrite (m : Mem w) (i : Nat) (v : BitVec w) (j : Nat) :
    memLookup (memWrite m i v) j = if j = i then some v else memLookup m j := by
  induction m with
  | nil => simp [memWrite, memLookup, eq_comm]
  | cons c t ih =>
    obtain ⟨a, x⟩ := c
    rw [memWrite]
    split_ifs <;> simp only [memLookup_cons, ih] <;> split_ifs <;> first | rfl | omega

@[simp] theorem memLookup_memWrite_same (m : Mem w) (i : Nat) (v : BitVec w) :
    memLookup (memWrite m i v) i = some v := by simp [memLookup_memWrite]

theorem memLookup_memWrite_other (m : Mem w) {i j : Nat} (v : BitVec w) (h : j ≠ i) :
    memLookup (memWrite m i v) j = memLookup m j := by simp [memLookup_memWrite, h]

theorem memRead_memWrite (m : Mem w) (i : Nat) (v : BitVec w) (j : Nat) :
    memRead (memWrite m i v) j = if j = i then v else memRead m j := by
  unfold memRead
  rw [memLookup_memWrite]
  split_ifs <;> rfl

@[simp] theorem memRead_memWrite_same (m : Mem w) (i : Nat) (v : BitVec w) :
    memRead (memWrite m i v) i = v := by simp [memRead_memWrite]

theorem memRead_memWrite_other (m : Mem w) {i j : Nat} (v : BitVec w) (h : j ≠ i) :
    memRead (memWrite m i v) j = memRead m j := by simp [memRead_memWrite, h]

theorem mem_memWrite {m : Mem w} {i : Nat} {v : BitVec w} {c : Nat × BitVec w} (h : c ∈ memWrite m i v) :
    c = (i, v) ∨ c ∈ m := by
  induction m with
  | nil => simpa [memWrite] using h
  | cons d t ih =>
    obtain ⟨a, x⟩ := d
    rw [memWrite] at h
    split_ifs at h
    · simpa using h
    · rcases List.mem_cons.1 h with h | h
      · exact .inl h
      · exact .inr (List.mem_cons_of_mem _ h)
    · rcases List.mem_cons.1 h with h | h
      · exact .inr (h ▸ List.mem_cons_self)
      · exact (ih h).imp_right (List.mem_cons_of_mem _)

/-- Every memory operation keeps the canonical form: a write below `n` does. -/
theorem memWrite_wf {n : Nat} {m : Mem w} {i : Nat} {v : BitVec w} (h : Mem.wf n m) (hi : i < n) :
    Mem.wf n (memWrite m i v) := by
  refine ⟨?_, fun c hc => (mem_memWrite hc).elim (fun e => e ▸ hi) (h.2 c)⟩
  have hp := h.1
  clear h hi
  induction m with
  | nil => simp [memWrite]
  | cons d t ih =>
    obtain ⟨a, x⟩ := d
    obtain ⟨h1, h2⟩ := List.pairwise_cons.1 hp
    rw [memWrite]
    split_ifs with hlt heq
    · refine List.pairwise_cons.2 ⟨fun c hc => ?_, hp⟩
      rcases List.mem_cons.1 hc with rfl | hc
      · exact hlt
      · exact lt_trans hlt (h1 c hc)
    · exact List.pairwise_cons.2 ⟨fun c hc => heq ▸ h1 c hc, h2⟩
    · refine List.pairwise_cons.2 ⟨fun c hc => ?_, ih h2⟩
      rcases mem_memWrite hc with rfl | hc
      · omega
      · exact h1 c hc

theorem mem_wf_nil (n : Nat) : Mem.wf n ([] : Mem w) := ⟨.nil, fun _ h => absurd h List.not_mem_nil⟩

theorem memFull_memWrite {n : Nat} {m : Mem w} (i : Nat) (v : BitVec w) (h : memFull n m) :
    memFull n (memWrite m i v) := by
  intro j hj
  rw [memLookup_memWrite]
  split_ifs
  · rfl
  · exact h j hj

theorem memLookup_eq_none_of_lt {m : Mem w} {i : Nat} (h : ∀ c ∈ m, i < c.1) : memLookup m i = none := by
  induction m with
  | nil => rfl
  | cons d t ih =>
    obtain ⟨a, x⟩ := d
    have := h (a, x) List.mem_cons_self
    rw [memLookup_cons, if_neg (by simp only at this; omega), ih fun c hc => h c (List.mem_cons_of_mem _ hc)]

/-- Equal memories are equal data: two canonical memories that hold the same words are the same list. -/
theorem mem_ext {n : Nat} {m m' : Mem w} (h : Mem.wf n m) (h' : Mem.wf n m')
    (he : ∀ i, memLookup m i = memLookup m' i) : m = m' := by
  have hp := h.1
  have hp' := h'.1
  clear h h'
  induction m generalizing m' with
  | nil =>
    cases m' with
    | nil => rfl
    | cons d t => have := he d.1; simp [memLookup] at this
  | cons c t ih =>
    cases m' with
    | nil => have := he c.1; simp [memLookup] at this
    | cons d t' =>
      obtain ⟨a, x⟩ := c
      obtain ⟨b, y⟩ := d
      obtain ⟨h1, h2⟩ := List.pairwise_cons.1 hp
      obtain ⟨h1', h2'⟩ := List.pairwise_cons.1 hp'
      have hab : a = b := by
        rcases lt_trichotomy a b with hlt | heq | hgt
        · have := he a
          rw [memLookup_cons, if_pos rfl, memLookup_cons, if_neg (by omega),
            memLookup_eq_none_of_lt fun c hc => lt_trans hlt (h1' c hc)] at this
          cases this
        · exact heq
        · have := he b
          rw [memLookup_cons, if_neg (by omega), memLookup_cons, if_pos rfl,
            memLookup_eq_none_of_lt fun c hc => lt_trans hgt (h1 c hc)] at this
          cases this
      subst hab
      have hxy : x = y := by simpa [memLookup_cons] using he a
      subst hxy
      congr 1
      refine ih (fun i => ?_) h2 h2'
      by_cases hi : a = i
      · subst hi
        rw [memLookup_eq_none_of_lt h1, memLookup_eq_none_of_lt h1']
      · simpa [memLookup_cons, hi] using he i

/-- A word that is listed reads as listed. -/
theorem memRead_of_lookup {m : Mem w} {i : Nat} {v : BitVec w} (h : memLookup m i = some v) : memRead m i = v := by
  simp [memRead, h]

/-- On a full memory a look-up gives the word that a read gives. -/
theorem memLookup_of_full {n : Nat} {m : Mem w} (hf : memFull n m) {k : Nat} (hk : k < n) :
    memLookup m k = some (memRead m k) := by
  obtain ⟨v, hv⟩ := Option.isSome_iff_exists.1 (hf k hk)
  rw [memRead_of_lookup hv, hv]

/-- On words that hold a value, equal reads are equal look-ups. -/
theorem memLookup_eq_of_read {m m' : Mem w} {i : Nat} (h : (memLookup m i).isSome) (h' : (memLookup m' i).isSome)
    (he : memRead m i = memRead m' i) : memLookup m i = memLookup m' i := by
  obtain ⟨v, hv⟩ := Option.isSome_iff_exists.1 h
  obtain ⟨v', hv'⟩ := Option.isSome_iff_exists.1 h'
  rw [memRead_of_lookup hv, memRead_of_lookup hv'] at he
  rw [hv, hv', he]

/-- Nothing is held outside the space. -/
theorem memLookup_eq_none_of_wf {n : Nat} {m : Mem w} (h : Mem.wf n m) {i : Nat} (hi : n ≤ i) : memLookup m i = none := by
  have hb := h.2
  clear h
  induction m with
  | nil => rfl
  | cons d t ih =>
    obtain ⟨a, x⟩ := d
    have := hb (a, x) List.mem_cons_self
    rw [memLookup_cons, if_neg (by simp only at this; omega), ih fun c hc => hb c (List.mem_cons_of_mem _ hc)]

/-- A pass that writes the indices `ks` in order, each with a word computed from the memory at that moment: an index that is
not written keeps its word. -/
theorem memLookup_foldl_write_other (f : Mem w → Nat → BitVec w) (ks : List Nat) (m : Mem w) {j : Nat} (h : j ∉ ks) :
    memLookup (ks.foldl (fun m k => memWrite m k (f m k)) m) j = memLookup m j := by
  induction ks generalizing m with
  | nil => rfl
  | cons k ks ih =>
    rw [List.foldl_cons, ih _ fun hj => h (List.mem_cons_of_mem _ hj),
      memLookup_memWrite_other _ _ fun e => h (by rw [e]; exact List.mem_cons_self)]

/-- Such a pass leaves a value at every index it writes. -/
theorem memLookup_foldl_write_isSome (f : Mem w → Nat → BitVec w) (ks : List Nat) (m : Mem w) {j : Nat}
    (h : j ∈ ks ∨ (memLookup m j).isSome) :
    (memLookup (ks.foldl (fun m k => memWrite m k (f m k)) m) j).isSome := by
  induction ks generalizing m with
  | nil => simpa using h
  | cons k ks ih =>
    rw [List.foldl_cons]
    apply ih
    rcases h with h | h
    · rcases List.mem_cons.1 h with rfl | h
      · exact .inr (by simp)
      · exact .inl h
    · right
      rw [memLookup_memWrite]
      split_ifs
      · rfl
      · exact h

/-- Such a pass keeps the canonical form. -/
theorem foldl_write_wf {n : Nat} (f : Mem w → Nat → BitVec w) (ks : List Nat) {m : Mem w} (h : Mem.wf n m)
    (hk : ∀ k ∈ ks, k < n) : Mem.wf n (ks.foldl (fun m k => memWrite m k (f m k)) m) := by
  induction ks generalizing m with
  | nil => exact h
  | cons k ks ih =>
    rw [List.foldl_cons]
    exact ih (memWrite_wf h (hk k List.mem_cons_self)) fun j hj => hk j (List.mem_cons_of_mem _ hj)

end Sys2Proof.Machine
end

