-- ==== Sys2Proof/Laws/Regen.lean ====
section
/-! SUPPORT. What the regeneration pass does to the engine (spec/42_regen.md R130, R132): it is one pass of writes over the
indices `0 .. N-1`, it keeps the canonical form, leaves a value at every index and changes no other field but the cursor,
the counter and its working registers. -/

namespace Sys2Proof.Machine

variable {w cw : Nat}

/-- The loop of the pass as a pass of writes. -/
theorem foldl_regenStep_mt (p : EngineParams w) (ks : List Nat) (e : Engine w cw) :
    (ks.foldl (regenStep p) e).mt = ks.foldl (fun m k => memWrite m k (regenWord p m k)) e.mt := by
  induction ks generalizing e with
  | nil => rfl
  | cons k ks ih => rw [List.foldl_cons, ih, List.foldl_cons, regenStep_mt]

/-- The loop changes the array and the working registers `k` and `yc` only. -/
theorem foldl_regenStep_frame (p : EngineParams w) (ks : List Nat) (e : Engine w cw) :
    ks.foldl (regenStep p) e
      = { e with mt := (ks.foldl (regenStep p) e).mt, k := (ks.foldl (regenStep p) e).k,
                 yc := (ks.foldl (regenStep p) e).yc } := by
  induction ks generalizing e with
  | nil => rfl
  | cons k ks ih => rw [List.foldl_cons, ih]; rfl

/-- The array after `REGEN_W`. -/
theorem regen_mt (p : EngineParams w) (e : Engine w cw) :
    (regen p e).mt = (List.range p.n).foldl (fun m k => memWrite m k (regenWord p m k)) e.mt :=
  foldl_regenStep_mt p _ e

@[simp] theorem regen_idx (p : EngineParams w) (e : Engine w cw) : (regen p e).idx = 0#cw := rfl

@[simp] theorem regen_regenCount (p : EngineParams w) (e : Engine w cw) :
    (regen p e).regenCount = e.regenCount + 1#32 := by
  unfold regen; rw [foldl_regenStep_frame]

@[simp] theorem regen_raw (p : EngineParams w) (e : Engine w cw) : (regen p e).raw = e.raw := by
  unfold regen; rw [foldl_regenStep_frame]

@[simp] theorem regen_y (p : EngineParams w) (e : Engine w cw) : (regen p e).y = e.y := by
  unfold regen; rw [foldl_regenStep_frame]

/-- The array after a regeneration depends on the array before it and on nothing else of the engine. -/
theorem regen_mt_congr (p : EngineParams w) {e e' : Engine w cw} (h : e.mt = e'.mt) : (regen p e).mt = (regen p e').mt := by
  rw [regen_mt, regen_mt, h]

theorem regen_wf (p : EngineParams w) {e : Engine w cw} (h : Mem.wf p.n e.mt) : Mem.wf p.n (regen p e).mt := by
  rw [regen_mt]
  exact foldl_write_wf (regenWord p) _ h fun k hk => List.mem_range.1 hk

theorem regen_full (p : EngineParams w) (e : Engine w cw) : memFull p.n (regen p e).mt := by
  intro k hk
  rw [regen_mt]
  exact memLookup_foldl_write_isSome (regenWord p) _ _ (.inl (List.mem_range.2 hk))

/-- After the first `m` steps an index from `m` on holds what it held. -/
theorem regen_prefix_old (p : EngineParams w) (m0 : Mem w) (m : Nat) {j : Nat} (hj : m ≤ j) :
    memRead ((List.range m).foldl (fun m k => memWrite m k (regenWord p m k)) m0) j = memRead m0 j := by
  unfold memRead
  rw [memLookup_foldl_write_other (regenWord p)]
  rw [List.mem_range]; omega

/-- An index below `m` has its final word after the first `m` steps: the later steps do not touch it. -/
theorem regen_prefix_new (p : EngineParams w) (m0 : Mem w) {m n : Nat} (hmn : m ≤ n) {j : Nat} (hj : j < m) :
    memRead ((List.range n).foldl (fun m k => memWrite m k (regenWord p m k)) m0) j
      = memRead ((List.range m).foldl (fun m k => memWrite m k (regenWord p m k)) m0) j := by
  induction n, hmn using Nat.le_induction with
  | base => rfl
  | succ n hmn ih =>
    rw [List.range_succ, List.foldl_append, List.foldl_cons, List.foldl_nil, memRead_memWrite_other _ _ (by omega), ih]

/-- The word that step `k` of the pass writes is the final word of index `k`. -/
theorem regen_word (p : EngineParams w) (e : Engine w cw) {k : Nat} (hk : k < p.n) :
    memRead (regen p e).mt k
      = regenWord p ((List.range k).foldl (fun m k => memWrite m k (regenWord p m k)) e.mt) k := by
  rw [regen_mt, regen_prefix_new p e.mt (show k + 1 ≤ p.n by omega) (Nat.lt_succ_self k), List.range_succ,
    List.foldl_append, List.foldl_cons, List.foldl_nil, memRead_memWrite_same]

/-- What step `k` of the pass reads at an index: the old word from `k` on, the final word below `k`. -/
theorem regen_prefix_read (p : EngineParams w) (e : Engine w cw) {k : Nat} (hk : k < p.n) (j : Nat) :
    memRead ((List.range k).foldl (fun m k => memWrite m k (regenWord p m k)) e.mt) j
      = if k ≤ j then memRead e.mt j else memRead (regen p e).mt j := by
  split_ifs with h
  · exact regen_prefix_old p e.mt k h
  · rw [regen_mt, regen_prefix_new p e.mt (show k ≤ p.n by omega) (by omega)]

/-- An index that has passed `N` once, reduced. -/
theorem mod_of_lt_two_mul {a n : Nat} (h : a < 2 * n) : a % n = if a < n then a else a - n := by
  split_ifs with h1
  · exact Nat.mod_eq_of_lt h1
  · rw [Nat.mod_eq_sub_mod (by omega), Nat.mod_eq_of_lt (by omega)]

/-- A record with a lag has at least two words. -/
theorem one_lt_n {p : EngineParams w} (hp : p.wf) (hl : p.lags ≠ []) : 1 < p.n := by
  obtain ⟨l, t, h⟩ := List.exists_cons_of_ne_nil hl
  have := hp.2.2.1 l (by rw [h]; exact List.mem_cons_self)
  omega

theorem range_eq_concat {n : Nat} (h : 0 < n) : List.range n = List.range (n - 1) ++ [n - 1] := by
  obtain ⟨m, rfl⟩ : ∃ m, n = m + 1 := ⟨n - 1, by omega⟩
  exact List.range_succ

/-- The loop index that the pass leaves. -/
theorem regen_k (p : EngineParams w) (e : Engine w cw) (h : 0 < p.n) : (regen p e).k = BitVec.ofNat cw (p.n - 1) := by
  unfold regen
  rw [range_eq_concat h, List.foldl_append]
  rfl

/-- The bit-combined word that the pass leaves: that of the last step. -/
theorem regen_yc (p : EngineParams w) (e : Engine w cw) (h : 1 < p.n) :
    (regen p e).yc = combine p (memRead e.mt (p.n - 1)) (memRead (regen p e).mt 0) := by
  have hl : (regen p e).yc = regenYc p ((List.range (p.n - 1)).foldl (regenStep p) e).mt (p.n - 1) := by
    unfold regen
    rw [range_eq_concat (by omega), List.foldl_append]
    rfl
  rw [hl, foldl_regenStep_mt, regenYc, regen_prefix_read p e (by omega), regen_prefix_read p e (by omega), if_pos le_rfl,
    show p.n - 1 + 1 = p.n by omega, Nat.mod_self, if_neg (by omega)]

/-- Everything REGEN does to the engine, field by field. -/
theorem regen_eq (p : EngineParams w) (e : Engine w cw) (h : 1 < p.n) :
    regen p e = { e with
      mt := (regen p e).mt
      idx := 0#cw
      regenCount := e.regenCount + 1#32
      k := BitVec.ofNat cw (p.n - 1)
      yc := combine p (memRead e.mt (p.n - 1)) (memRead (regen p e).mt 0) } := by
  rw [← regen_yc p e h, ← regen_k p e (by omega), ← regen_regenCount p e, ← regen_idx p e, ← regen_raw p e, ← regen_y p e]

/-- Everything `REGEN32` does to the state. -/
theorem regen32_eq (p : Params) (s : State) (h : 1 < p.e32.n) :
    regen32 p s = { s with e32 := { s.e32 with
      mt := (regen p.e32 s.e32).mt
      idx := 0#10
      regenCount := s.e32.regenCount + 1#32
      k := BitVec.ofNat 10 (p.e32.n - 1)
      yc := combine p.e32 (memRead s.e32.mt (p.e32.n - 1)) (memRead (regen p.e32 s.e32).mt 0) } } := by
  rw [regen32, regen_eq p.e32 s.e32 h]

/-- Everything `REGEN64` does to the state. -/
theorem regen64_eq (p : Params) (s : State) (h : 1 < p.e64.n) :
    regen64 p s = { s with e64 := { s.e64 with
      mt := (regen p.e64 s.e64).mt
      idx := 0#9
      regenCount := s.e64.regenCount + 1#32
      k := BitVec.ofNat 9 (p.e64.n - 1)
      yc := combine p.e64 (memRead s.e64.mt (p.e64.n - 1)) (memRead (regen p.e64 s.e64).mt 0) } } := by
  rw [regen64, regen_eq p.e64 s.e64 h]

end Sys2Proof.Machine
end

