-- ==== Sys2Proof/Laws/Seed.lean ====
section
/-! SUPPORT. What the seeding passes do (spec/41_seed.md R111 to R114): which words they write, what each word is, and what
of the engine they leave alone. -/

namespace Sys2Proof.Machine

variable {w cw : Nat}

/-- The first `m` steps of SEED32's loop: word `k` is the seed after `k` steps of the recurrence, for `k ≤ m`. -/
theorem seedFill32_prefix (p : EngineParams w) (seed : BitVec w) (e : Engine w cw) (m k : Nat) (hk : k ≤ m) :
    memRead ((List.range' 1 m).foldl (seedStep32 p) { e with mt := memWrite e.mt 0 seed }).mt k
      = (seedLcg p)^[k] seed := by
  induction m generalizing k with
  | zero => obtain rfl : k = 0 := by omega
            simp
  | succ m ih =>
    rw [List.range'_1_concat, List.foldl_append, List.foldl_cons, List.foldl_nil, seedStep32_mt, memRead_memWrite]
    split_ifs with h
    · subst h
      rw [ih _ (by omega), show 1 + m - 1 = m by omega, ← Function.iterate_succ_apply' (seedLcg p), Nat.add_comm]
    · exact ih k (by omega)

/-- Word `k` of the array SEED32 writes. -/
theorem seedFill32_read (p : EngineParams w) (seed : BitVec w) (e : Engine w cw) {k : Nat} (hk : k < p.n) :
    memRead (seedFill32 p seed e).mt k = (seedLcg p)^[k] seed :=
  seedFill32_prefix p seed e _ k (by omega)

/-- The loop of SEED32 as a pass of writes. -/
theorem foldl_seedStep32_mt (p : EngineParams w) (ks : List Nat) (e : Engine w cw) :
    (ks.foldl (seedStep32 p) e).mt
      = ks.foldl (fun m k => memWrite m k (seedLcg p (memRead m (k - 1)))) e.mt := by
  induction ks generalizing e with
  | nil => rfl
  | cons k ks ih => rw [List.foldl_cons, ih, List.foldl_cons, seedStep32_mt]

/-- The loop of SEED32 changes the array and the loop index only. -/
theorem foldl_seedStep32_frame (p : EngineParams w) (ks : List Nat) (e : Engine w cw) :
    ks.foldl (seedStep32 p) e
      = { e with mt := (ks.foldl (seedStep32 p) e).mt, k := (ks.foldl (seedStep32 p) e).k } := by
  induction ks generalizing e with
  | nil => rfl
  | cons k ks ih => rw [List.foldl_cons, ih]; rfl

theorem seedFill32_frame (p : EngineParams w) (seed : BitVec w) (e : Engine w cw) :
    seedFill32 p seed e = { e with mt := (seedFill32 p seed e).mt, k := (seedFill32 p seed e).k } := by
  unfold seedFill32; rw [foldl_seedStep32_frame]

theorem seedFill32_wf (p : EngineParams w) (seed : BitVec w) {e : Engine w cw} (hn : 0 < p.n) (h : Mem.wf p.n e.mt) :
    Mem.wf p.n (seedFill32 p seed e).mt := by
  unfold seedFill32
  rw [foldl_seedStep32_mt]
  refine foldl_write_wf (fun m k => seedLcg p (memRead m (k - 1))) _ (memWrite_wf h hn) fun k hk => ?_
  have := List.mem_range'_1.1 hk; omega

theorem seedFill32_full (p : EngineParams w) (seed : BitVec w) (e : Engine w cw) :
    memFull p.n (seedFill32 p seed e).mt := by
  intro k hk
  unfold seedFill32
  rw [foldl_seedStep32_mt]
  apply memLookup_foldl_write_isSome (fun m k => seedLcg p (memRead m (k - 1)))
  by_cases h : k = 0
  · right; simp [h]
  · left; rw [List.mem_range'_1]; omega

/-- After the first `m` steps of SEED64's loop: the running value has taken `2 * m` steps, and word `k < m` is made of the
high halves before its first and its second step. -/
theorem seedFill64_prefix (p : EngineParams 64) (seed : Word64) (e : Engine 64 cw) (m : Nat) :
    ((List.range m).foldl (seedStep64 p) (e, seed)).2 = (seedLcg p)^[2 * m] seed ∧
    ∀ k, k < m → memRead ((List.range m).foldl (seedStep64 p) (e, seed)).1.mt k
      = ((seedLcg p)^[2 * k] seed).extractLsb' 32 32 ++ ((seedLcg p)^[2 * k + 1] seed).extractLsb' 32 32 := by
  induction m with
  | zero => simp
  | succ m ih =>
    obtain ⟨ih2, ih1⟩ := ih
    rw [List.range_succ, List.foldl_append, List.foldl_cons, List.foldl_nil]
    refine ⟨?_, fun k hk => ?_⟩
    · simp only [seedStep64, ih2]
      rw [show 2 * (m + 1) = 2 * m + 1 + 1 by omega, Function.iterate_succ_apply', Function.iterate_succ_apply']
    · simp only [seedStep64, memRead_memWrite, ih2]
      split_ifs with h
      · subst h; rw [Function.iterate_succ_apply']
      · exact ih1 k (by omega)

theorem seedFill64_read (p : EngineParams 64) (seed : Word64) (e : Engine 64 cw) {k : Nat} (hk : k < p.n) :
    memRead (seedFill64 p seed e).1.mt k
      = ((seedLcg p)^[2 * k] seed).extractLsb' 32 32 ++ ((seedLcg p)^[2 * k + 1] seed).extractLsb' 32 32 :=
  (seedFill64_prefix p seed e p.n).2 k hk

theorem seedFill64_lcg (p : EngineParams 64) (seed : Word64) (e : Engine 64 cw) :
    (seedFill64 p seed e).2 = (seedLcg p)^[2 * p.n] seed := (seedFill64_prefix p seed e p.n).1

/-- The loop of SEED64 changes the array and the loop index only (and the running value). -/
theorem foldl_seedStep64_frame (p : EngineParams 64) (ks : List Nat) (x : Engine 64 cw × Word64) :
    (ks.foldl (seedStep64 p) x).1
      = { x.1 with mt := (ks.foldl (seedStep64 p) x).1.mt, k := (ks.foldl (seedStep64 p) x).1.k } := by
  induction ks generalizing x with
  | nil => rfl
  | cons k ks ih => rw [List.foldl_cons, ih]; rfl

theorem seedFill64_frame (p : EngineParams 64) (seed : Word64) (e : Engine 64 cw) :
    (seedFill64 p seed e).1 = { e with mt := (seedFill64 p seed e).1.mt, k := (seedFill64 p seed e).1.k } :=
  foldl_seedStep64_frame p _ (e, seed)

theorem foldl_seedStep64_wf (p : EngineParams 64) {n : Nat} (ks : List Nat) (x : Engine 64 cw × Word64)
    (h : Mem.wf n x.1.mt) (hk : ∀ k ∈ ks, k < n) : Mem.wf n (ks.foldl (seedStep64 p) x).1.mt := by
  induction ks generalizing x with
  | nil => exact h
  | cons k ks ih =>
    rw [List.foldl_cons]
    exact ih _ (memWrite_wf h (hk k List.mem_cons_self)) fun j hj => hk j (List.mem_cons_of_mem _ hj)

theorem seedFill64_wf (p : EngineParams 64) (seed : Word64) {e : Engine 64 cw} (h : Mem.wf p.n e.mt) :
    Mem.wf p.n (seedFill64 p seed e).1.mt :=
  foldl_seedStep64_wf p _ (e, seed) h fun _ hk => List.mem_range.1 hk

theorem foldl_seedStep64_isSome (p : EngineParams 64) (ks : List Nat) (x : Engine 64 cw × Word64) {j : Nat}
    (h : j ∈ ks ∨ (memLookup x.1.mt j).isSome) : (memLookup (ks.foldl (seedStep64 p) x).1.mt j).isSome := by
  induction ks generalizing x with
  | nil => simpa using h
  | cons k ks ih =>
    rw [List.foldl_cons]
    apply ih
    rcases h with h | h
    · rcases List.mem_cons.1 h with rfl | h
      · exact .inr (by simp [seedStep64])
      · exact .inl h
    · right
      simp only [seedStep64, memLookup_memWrite]
      split_ifs
      · rfl
      · exact h

theorem seedFill64_full (p : EngineParams 64) (seed : Word64) (e : Engine 64 cw) :
    memFull p.n (seedFill64 p seed e).1.mt := fun _ hk =>
  foldl_seedStep64_isSome p _ _ (.inl (List.mem_range.2 hk))

/-- The loop index that the loop of SEED32 leaves. -/
theorem seedFill32_k (p : EngineParams w) (seed : BitVec w) (e : Engine w cw) (h : 1 < p.n) :
    (seedFill32 p seed e).k = BitVec.ofNat cw (p.n - 1) := by
  obtain ⟨m, hm⟩ : ∃ m, p.n = m + 1 + 1 := ⟨p.n - 2, by omega⟩
  unfold seedFill32
  rw [show p.n - 1 = m + 1 by omega, List.range'_1_concat, List.foldl_append, Nat.add_comm m 1]
  rfl

/-- The loop index that the loop of SEED64 leaves. -/
theorem seedFill64_k (p : EngineParams 64) (seed : Word64) (e : Engine 64 cw) (h : 0 < p.n) :
    (seedFill64 p seed e).1.k = BitVec.ofNat cw (p.n - 1) := by
  unfold seedFill64
  rw [range_eq_concat h, List.foldl_append]
  rfl

/-- Everything `SEED32` does to the state. -/
theorem seed32_eq (p : Params) (s : State) (h : 1 < p.e32.n) :
    seed32 p s = { s with e32 := { s.e32 with
      mt := (seedFill32 p.e32 (effectiveSeed p.e32 (handleIn32 s.hIn)) s.e32).mt
      idx := postSeedIdx p p.e32.n 10
      k := BitVec.ofNat 10 (p.e32.n - 1) } } := by
  rw [seed32, ← seedFill32_k p.e32 (effectiveSeed p.e32 (handleIn32 s.hIn)) s.e32 h]
  simp only
  rw [seedFill32_frame]

/-- Everything `SEED64` does to the state. -/
theorem seed64_eq (p : Params) (s : State) (h : 0 < p.e64.n) :
    seed64 p s = { s with
      e64 := { s.e64 with
        mt := (seedFill64 p.e64 (effectiveSeed p.e64 (handleIn64 s.hIn)) s.e64).1.mt
        idx := postSeedIdx p p.e64.n 9
        k := BitVec.ofNat 9 (p.e64.n - 1) }
      lcg := (seedLcg p.e64)^[2 * p.e64.n] (effectiveSeed p.e64 (handleIn64 s.hIn)) } := by
  rw [seed64, ← seedFill64_k p.e64 (effectiveSeed p.e64 (handleIn64 s.hIn)) s.e64 h,
    ← seedFill64_lcg p.e64 (effectiveSeed p.e64 (handleIn64 s.hIn)) s.e64]
  simp only
  rw [seedFill64_frame]

end Sys2Proof.Machine
end

