-- ==== Sys2Proof/Laws/Draw.lean ====
section
/-! SUPPORT. What a draw can do (spec/40_draw.md R91 to R93): which of the three micro-operations run, by the cursor. One
lemma per case and width; callers cite these and do not unfold `draw32` or `draw64`. -/

namespace Sys2Proof.Machine

@[simp] theorem toIdle_next (s : State) : toIdle (.next s) = .next { s with phase := .idle } := rfl
@[simp] theorem toIdle_fault (f : Fault) : toIdle (.fault f) = .fault f := rfl

/-- A ready engine: EMIT alone. -/
theorem draw32_ready {p : Params} {s : State} (h : s.e32.idx.toNat < p.e32.n) :
    draw32 p s = toIdle (emit32 p (latch32 p s)) := by
  have h1 : uninit p.e32 s.e32 = false := by rw [Bool.eq_false_iff]; simp; omega
  have h2 : exhausted p.e32 s.e32 = false := by rw [Bool.eq_false_iff]; simp; omega
  simp [draw32, h1, h2]

/-- An exhausted engine: REGEN, EMIT. -/
theorem draw32_exhausted {p : Params} {s : State} (h : s.e32.idx.toNat = p.e32.n) :
    draw32 p s = toIdle (emit32 p (regen32 p (latch32 p s))) := by
  have h1 : uninit p.e32 s.e32 = false := by rw [Bool.eq_false_iff]; simp; omega
  have h2 : exhausted p.e32 s.e32 = true := by simpa using h
  simp [draw32, h1, h2]

/-- An uninitialized engine, with the cursor seeding leaves at `N`: SEED, REGEN, EMIT. -/
theorem draw32_uninit {p : Params} {s : State} (h : s.e32.idx.toNat = p.e32.n + 1)
    (hp : (postSeedIdx p p.e32.n 10).toNat = p.e32.n) :
    draw32 p s = toIdle (emit32 p (regen32 p (seed32 p (latch32 p s)))) := by
  have h1 : uninit p.e32 s.e32 = true := by simpa using h
  have h2 : exhausted p.e32 (seed32 p (latch32 p s)).e32 = true := by simpa [seed32] using hp
  simp [draw32, h1, h2]

theorem draw64_ready {p : Params} {s : State} (h : s.e64.idx.toNat < p.e64.n) :
    draw64 p s = toIdle (emit64 p (latch64 p s)) := by
  have h1 : uninit p.e64 s.e64 = false := by rw [Bool.eq_false_iff]; simp; omega
  have h2 : exhausted p.e64 s.e64 = false := by rw [Bool.eq_false_iff]; simp; omega
  simp [draw64, h1, h2]

theorem draw64_exhausted {p : Params} {s : State} (h : s.e64.idx.toNat = p.e64.n) :
    draw64 p s = toIdle (emit64 p (regen64 p (latch64 p s))) := by
  have h1 : uninit p.e64 s.e64 = false := by rw [Bool.eq_false_iff]; simp; omega
  have h2 : exhausted p.e64 s.e64 = true := by simpa using h
  simp [draw64, h1, h2]

theorem draw64_uninit {p : Params} {s : State} (h : s.e64.idx.toNat = p.e64.n + 1)
    (hp : (postSeedIdx p p.e64.n 9).toNat = p.e64.n) :
    draw64 p s = toIdle (emit64 p (regen64 p (seed64 p (latch64 p s)))) := by
  have h1 : uninit p.e64 s.e64 = true := by simpa using h
  have h2 : exhausted p.e64 (seed64 p (latch64 p s)).e64 = true := by simpa [seed64] using hp
  simp [draw64, h1, h2]

/-- The cursor that seeding leaves under the configuration `exec` runs (spec/41_seed.md R113). -/
theorem postSeedIdx_params32 : (postSeedIdx Config.params Config.params.e32.n 10).toNat = Config.params.e32.n := by decide
theorem postSeedIdx_params64 : (postSeedIdx Config.params Config.params.e64.n 9).toNat = Config.params.e64.n := by decide

@[simp] theorem params_e32_n : Config.params.e32.n = 624 := rfl
@[simp] theorem params_e64_n : Config.params.e64.n = 312 := rfl

end Sys2Proof.Machine
end

