-- ==== Sys2Proof/Laws/Step.lean ====
section
/-! SUPPORT. What one step can do: one equation per case of `fetch`, the phase after a micro-operation, and how a run
unrolls. -/

namespace Sys2Proof.Machine

/-- A reset event at the head of the host's events. -/
theorem step_reset_head (s : State) (rest : List HostEvent) (h : s.host = .reset :: rest) :
    step s = .next (resetEvent { s with host := rest }) := by
  simp [step, fetch, h]

/-- No event and no micro-operation: the fetch is of the micro-operation code in `sel` and `phase`. -/
theorem fetch_no_event (s : State) (h : s.host = []) : fetch s = .microOp (uopInstr s.sel s.phase) s := by
  simp [fetch, h]

/-- A resting machine takes the command presented. -/
theorem fetch_command (s : State) (width : Byte) (handle : Word64) (rest : List HostEvent) (hp : s.phase = .idle)
    (h : s.host = .command width handle :: rest) :
    fetch s = .command (decodeCommand width) (acceptCommand width handle rest s) := by
  simp [fetch, h, hp]

/-- Inside a command a presented command waits. -/
theorem fetch_busy (s : State) (width : Byte) (handle : Word64) (rest : List HostEvent) (hp : s.phase ≠ .idle)
    (h : s.host = .command width handle :: rest) : fetch s = .microOp (uopInstr s.sel s.phase) s := by
  unfold fetch
  rw [h]
  cases hq : s.phase <;> simp_all

/-- Inside a command, where no reset is presented, the micro-operation of `sel` and `phase` comes next. -/
theorem fetch_microOp (s : State) (hp : s.phase ≠ .idle) (hh : s.host.head? ≠ some .reset) :
    fetch s = .microOp (uopInstr s.sel s.phase) s := by
  cases h : s.host with
  | nil => exact fetch_no_event s h
  | cons e rest =>
    cases e with
    | reset => simp [h] at hh
    | command w hd => exact fetch_busy s w hd rest hp h

/-- The code `{sel, phase}` decodes to the micro-operation of `sel` and `phase`. -/
theorem decode_encodeUop (sel : EngineSel) (ph : Phase) : decode (.uop (encodeUop sel ph)) = .ok (uopInstr sel ph) := by
  cases sel <;> cases ph <;> rfl

/-- No micro-operation writes `phase`: the control does. -/
theorem exec_uopInstr_phase {s t : State} {sel : EngineSel} {ph : Phase} (h : exec (uopInstr sel ph) s = .next t) :
    t.phase = s.phase := by
  cases ph with
  | idle => injection h with h; rw [h]
  | seed => cases sel <;> (injection h with h; rw [← h]; simp)
  | regen => cases sel <;> (injection h with h; rw [← h]; simp)
  | emit =>
    cases sel with
    | e32 => rw [(emit32_cases h).2]; simp
    | e64 => rw [(emit64_cases h).2]; simp

@[simp] theorem advancePhase_next (p : Params) (s : State) :
    advancePhase p (.next s) = .next { s with phase := nextPhase p s.phase } := rfl
@[simp] theorem advancePhase_fault (p : Params) (f : Fault) : advancePhase p (.fault f) = .fault f := rfl

/-- A run that has no step left. -/
@[simp] theorem core_run_zero (s : State) : Host.Core.run core 0 s = .next s := rfl

/-- A run whose first step answers `t` goes on from `t`; the same for the two ways to stop. -/
theorem run_succ_next (M : Host.Core) (k : Nat) {s t : M.State} (h : M.step s = .next t) : M.run (k + 1) s = M.run k t := by
  rw [Host.Core.run, h]

theorem run_succ_fault (M : Host.Core) (k : Nat) {s : M.State} {f : M.Fault} (h : M.step s = .fault f) :
    M.run (k + 1) s = .fault f := by
  rw [Host.Core.run, h]

theorem run_succ_refused (M : Host.Core) (k : Nat) {s : M.State} {r : M.Refusal} (h : M.step s = .refused r) :
    M.run (k + 1) s = .refused r := by
  rw [Host.Core.run, h]

theorem core_run_succ {s t : State} (k : Nat) (h : step s = .next t) :
    Host.Core.run core (k + 1) s = Host.Core.run core k t := run_succ_next core k h

/-- A run of one step is the step. -/
theorem core_run_one (s : State) : Host.Core.run core 1 s = step s := by
  cases h : step s with
  | next t => exact core_run_succ 0 h
  | fault f => exact run_succ_fault core 0 h
  | refused r => exact run_succ_refused core 0 h

/-- A command is a move of the host at rest alone: it runs the decoded instruction. -/
theorem hostMove_command_idle (s : State) (width : Byte) (handle : Word64) (hp : s.phase = .idle) :
    hostMove (.command width handle) s = exec (decodeCommand width) (acceptCommand width handle s.host s) := by
  rw [hostMove, if_pos hp, step,
    fetch_command { s with host := .command width handle :: s.host } width handle s.host hp rfl]
  rfl

/-- Inside a command the host has no such move. -/
theorem hostMove_command_busy (s : State) (width : Byte) (handle : Word64) (hp : s.phase ≠ .idle) :
    hostMove (.command width handle) s = .refused .commandInFlight := by
  rw [hostMove, if_neg hp]

/-- A reset is a move in every phase. -/
theorem hostMove_reset (s : State) : hostMove .reset s = .next (resetEvent s) :=
  step_reset_head { s with host := .reset :: s.host } s.host rfl

/-- A move of the host that answers a next state was a reset, or a command to a resting machine. -/
theorem hostMove_cases {e : HostEvent} {s t : State} (h : hostMove e s = .next t) :
    (e = .reset ∧ t = resetEvent s) ∨
    ∃ width handle, e = .command width handle ∧ s.phase = .idle ∧
      exec (decodeCommand width) (acceptCommand width handle s.host s) = .next t := by
  cases e with
  | reset =>
    rw [hostMove_reset] at h
    cases h
    exact .inl ⟨rfl, rfl⟩
  | command width handle =>
    by_cases hp : s.phase = .idle
    · exact .inr ⟨width, handle, rfl, hp, by rwa [← hostMove_command_idle s width handle hp]⟩
    · rw [hostMove_command_busy s width handle hp] at h
      cases h

end Sys2Proof.Machine
end

