-- ==== Sys2Proof/Tests/Slice0.lean ====
section
/-! SUPPORT. The model's own tests. The first part checks values that stand in the spec (each theorem names the vector of
spec/95_test_vectors.md or the rule it comes from). The second part (`witness_…`) shows, for every statement that has
hypotheses, a concrete state and operands that meet all of them together. -/

namespace Sys2Proof.Tests

open Sys2Proof.Machine

/-! ### WellFormed -/

theorem test_wf_refuses_reserved_20 : (Instr.reserved 0x20#8).wellFormed = false := by decide
theorem test_wf_refuses_reserved_40 : (Instr.reserved 0x40#8).wellFormed = false := by decide
theorem test_wf_accepts_reserved_21 : (Instr.reserved 0x21#8).wellFormed = true := by decide
theorem test_uop_has_no_command_byte : commandByte .emit64 = none ∧ commandByte .draw64 = some 0b01000000#8 := by decide

/-! ### Decoding: words written out from spec/30_encoding.md R74 and R78 -/

theorem test_decode_draw32 : decode (.command 0b00100000#8) = .ok .draw32 := by decide
theorem test_decode_draw64 : decode (.command 0b01000000#8) = .ok .draw64 := by decide
theorem test_decode_reserved : decode (.command 0b00010000#8) = .ok (.reserved 0b00010000#8) := by decide
theorem test_decode_reserved_60 : decode (.command 0b01100000#8) = .ok (.reserved 0b01100000#8) := by decide
theorem test_decode_idle : decode (.uop 0b0000#4) = .ok (.idle .e32) ∧ decode (.uop 0b1000#4) = .ok (.idle .e64) := by decide
theorem test_decode_seed : decode (.uop 0b0001#4) = .ok .seed32 ∧ decode (.uop 0b1001#4) = .ok .seed64 := by decide
theorem test_decode_regen : decode (.uop 0b0010#4) = .ok .regen32 ∧ decode (.uop 0b1010#4) = .ok .regen64 := by decide
theorem test_decode_emit : decode (.uop 0b0011#4) = .ok .emit32 ∧ decode (.uop 0b1011#4) = .ok .emit64 := by decide
theorem test_decode_unused : decode (.uop 0b0100#4) = .error (.unusedUop 0b0100#4) := by decide
/-- The encoding of program P4: `20 40 20 10 40 20`. -/
theorem test_decode_program_p4 : decodeProgram [0x20#8, 0x40#8, 0x20#8, 0x10#8, 0x40#8, 0x20#8] =
    [.draw32, .draw64, .draw32, .reserved 0x10#8, .draw64, .draw32] := by decide
theorem test_table_word : decodeTableWord 8 0x20 = some .draw32 ∧ decodeTableWord 4 0b1011 = some .emit64 := by decide

/-! ### Parameters: spec/00_scope.md R9, R10 -/

theorem test_masks32 : Config.e32.umask = 0x80000000#32 ∧ Config.e32.lmask = 0x7FFFFFFF#32 := by decide
theorem test_masks64 :
    Config.e64.umask = 0xFFFFFFFF80000000#64 ∧ Config.e64.lmask = 0x000000007FFFFFFF#64 := by decide

/-! ### Tempering and conversion -/

/-- V-T5. -/
theorem test_temper32 : temper Config.e32 0x12345678#32 = 0x2B7E4A2D#32 := by decide
/-- V-T10. -/
theorem test_temper64 : temper Config.e64 0x123456789ABCDEF0#64 = 0x35B6FBC297E62D21#64 := by decide
/-- V-C2. -/
theorem test_cvt32_least : bits64 (cvt .castThenDivide 1#32) = 0x3DF0000000100000#64 := by decide
/-- V-C6. -/
theorem test_cvt32_one : bits64 (cvt .castThenDivide 0xFFFFFFFF#32) = 0x3FF0000000000000#64 := by decide
/-- V-C13, V-C12: the tie at `2^64 - 1024` and its neighbour below. -/
theorem test_cvt64_tie : bits64 (cvt .castThenDivide 0xFFFFFFFFFFFFFC00#64) = 0x3FF0000000000000#64 ∧
    bits64 (cvt .castThenDivide 0xFFFFFFFFFFFFFBFF#64) = 0x3FEFFFFFFFFFFFFF#64 := by decide
/-- V-C15: the two readings of "cast and divided" differ here. -/
theorem test_cvt64_reading : bits64 (cvt .castThenDivide 0x36469FABF59CD100#64) = 0x3FCB234FD5FACE68#64 ∧
    bits64 (cvt .roundQuotientOnce 0x36469FABF59CD100#64) = 0x3FCB234FD5FACE69#64 := by decide

/-! ### Regeneration -/

/-- The 32-bit toy parameters of V-R9. -/
def toy32 : EngineParams 32 := { Config.e32 with n := 4, lags := [2] }

/-- The 64-bit toy parameters of V-R10. -/
def toy64 : EngineParams 64 := { Config.e64 with n := 8, lags := [2, 3, 5] }

/-- An engine that holds the listed words. -/
def engineOf (w cw : Nat) (words : List (BitVec w)) (idx : Nat) : Engine w cw where
  mt := (List.range words.length).zip words
  idx := BitVec.ofNat cw idx
  regenCount := 0#32
  k := 0#cw
  yc := 0#w
  raw := 0#w
  y := 0#w

/-- The array before of V-R9. -/
def toyEngine32 : Engine 32 10 := engineOf 32 10 [0x80000001#32, 0x00000002#32, 0x7FFFFFFF#32, 0xFFFFFFFF#32] 4

/-- The array before of V-R10. -/
def toyEngine64 : Engine 64 9 := engineOf 64 9
  [0x0123456789ABCDEF#64, 0xFEDCBA9876543210#64, 0x8000000000000000#64, 0x000000007FFFFFFF#64,
   0x0000000080000000#64, 0xFFFFFFFFFFFFFFFF#64, 0x0000000000000001#64, 0x0000000000000000#64] 8

/-- V-R9: in place, not double-buffered. -/
theorem test_regen32_in_place : (regen toy32 toyEngine32).mt =
    (engineOf 32 10 [0x3FFFFFFE#32, 0x5908B0DF#32, 0x9908B0DE#32, 0x06F74F20#32] 0).mt := by decide
/-- V-R10. -/
theorem test_regen64_in_place : (regen toy64 toyEngine64).mt = (engineOf 64 9
    [0x7F6E5D4C7B2A1908#64, 0x7F6E5D4CFFFFFFFE#64, 0x0C7EA49D0FC82E2F#64, 0x8091A2B384D5E6F6#64,
     0xCCEF062ECFC82E2F#64, 0xBF6E5D4CFB2A1908#64, 0x8091A2B300000000#64, 0xBFFFFFFF026AF37A#64] 0).mt := by decide
/-- V-R1: step 0 of the first batch of seed 4357. -/
theorem test_regen32_step : regenWord Config.e32 [(0, 0x00001105#32), (1, 0x11EFE201#32), (397, 0x03B1E2B1#32)] 0 =
    0x924EA36E#32 := by decide
/-- V-R7d: the last step of REGEN64, every index wrapped. -/
theorem test_regen64_step : regenWord Config.e64 [(0, 0x8C36CAF60A4E370F#64), (62, 0x811F82CAA74CA38F#64),
    (150, 0x544CB4FED6B514AE#64), (223, 0x36C61E21E66129B9#64), (311, 0x61D38708B904B8A5#64)] 311 =
    0x60FDB0F39D77AB30#64 := by decide
/-- spec/42_regen.md R132, R31: the cursor and the counter. -/
theorem test_regen_cursor : (regen toy32 toyEngine32).idx = 0#10 ∧ (regen toy32 toyEngine32).regenCount = 1#32 := by decide
/-- V-R9, V-R10 by the index ranges of spec/42_regen.md R128 and R129. -/
theorem test_regen_ranges : regenRanges32 toy32 2 toyEngine32.mt = (regen toy32 toyEngine32).mt ∧
    regenRanges64 toy64 2 3 5 toyEngine64.mt = (regen toy64 toyEngine64).mt := by decide

/-! ### Seeding: the first four words of a full array, on a space of four words -/

/-- V-S1. -/
theorem test_seed32_words : (seedFill32 toy32 1#32 (engineOf 32 10 [] 5)).mt =
    (engineOf 32 10 [0x00000001#32, 0x00010DCD#32, 0x1C587629#32, 0xA6FFB3D5#32] 0).mt := by decide
/-- V-S5. -/
theorem test_seed64_words : (seedFill64 { toy64 with n := 4 } 2#64 (engineOf 64 9 [] 5)).1.mt = (engineOf 64 9
    [0x000000004F765DCD#64, 0xA900BD5B713A72BA#64, 0x88716F7BF8E8CB07#64, 0xB057FA61BFA812A9#64] 0).mt := by decide
/-- spec/41_seed.md R110 and its example: bits 63:32 of the handle are not tested on E32; on E64 they are. -/
theorem test_effective_seed : effectiveSeed Config.e32 (handleIn32 0x0000000100000000#64) = 4357#32 ∧
    effectiveSeed Config.e64 (handleIn64 0x0000000100000000#64) = 0x0000000100000000#64 := by decide

/-! ### The commands, one step each -/

/-- The reset state with engine E32 replaced. -/
def with32 (m : Mem 32) (idx : Nat) : State :=
  { State.reset with e32 := { State.reset.e32 with mt := m, idx := BitVec.ofNat 10 idx } }

/-- The reset state with engine E64 replaced. -/
def with64 (m : Mem 64) (idx : Nat) : State :=
  { State.reset with e64 := { State.reset.e64 with mt := m, idx := BitVec.ofNat 9 idx } }

/-- The next state, if there is one. -/
def nextState (o : Host.Outcome State Fault Refusal) : Option State :=
  match o with
  | .next t => some t
  | .fault _ => none
  | .refused _ => none

/-- What a step answers: the responses and both cursors. -/
def seen (o : Host.Outcome State Fault Refusal) : Option (List Response × Nat × Nat) :=
  match o with
  | .next t => some (t.responses, t.e32.idx.toNat, t.e64.idx.toNat)
  | .fault _ => none
  | .refused _ => none

/-- V-D11: draw 2 of seed 4357 with an ignored handle; E64 is not touched. -/
theorem test_draw32_emit : seen (present (with32 [(1, 0x4F67B784#32)] 1) (0x20#8, 0x00000000DEADBEEF#64)) =
    some ([⟨.noFault, 0x00000000FFC27482#64, some 0x3FEFF84E905FF84F#64⟩], 2, 313) := by decide
/-- P2, draw 5: the word read at cursor 4. -/
theorem test_draw64_emit : seen (present (with64 [(4, 0x1607CDA1C441A511#64)] 4) (0x40#8, 0#64)) =
    some ([⟨.noFault, 0x90EFCF41CED312FE#64, some 0x3FE21DF9E839DA62#64⟩], 625, 5) := by decide
/-- P3, draw 624: the cursor is left at N. -/
theorem test_emit32_last : seen (exec .emit32 (with32 [(623, 0x0610EDC4#32)] 623)) =
    some ([⟨.noFault, 0x2B9061BD#64, some 0x3FC5C830DE95C831#64⟩], 624, 313) := by decide
/-- P3, draw 312 of E64. -/
theorem test_emit64_last : seen (exec .emit64 (with64 [(311, 0x60FDB0F39D77AB30#64)] 311)) =
    some ([⟨.noFault, 0x7113DB72A8DFB061#64, some 0x3FDC44F6DCAA37EC#64⟩], 625, 312) := by decide
/-- V-X1. -/
theorem test_reserved_fault : seen (present State.reset (0x10#8, 7#64)) =
    some ([⟨.widthUnsupported 0x10#8, 7#64, none⟩], 625, 313) := by decide
/-- V-X3. -/
theorem test_reserved_handle : seen (present State.reset (0x21#8, 0x123456789ABCDEF0#64)) =
    some ([⟨.widthUnsupported 0x21#8, 0x123456789ABCDEF0#64, none⟩], 625, 313) := by decide
/-- V-F1. -/
theorem test_reset_state : State.reset.e32.idx.toNat = 625 ∧ State.reset.e64.idx.toNat = 313 ∧ State.reset.phase = .idle ∧
    State.reset.e32.mt = [] := by decide
/-- spec/60_exceptions.md R177: reset wins over a command in flight. -/
theorem test_reset_event :
    nextState (step { with32 [(0, 1#32)] 0 with phase := .emit, host := [.reset] }) = some State.reset := by decide
/-- spec/70_reset_and_hazards.md R199: a busy block gives a command no step; a reset it takes. -/
theorem test_busy_refuses_command :
    (match present { with32 [(0, 1#32)] 0 with phase := .emit } (0x20#8, 0#64) with
      | .refused r => some r
      | .next _ => none
      | .fault _ => none) = some .commandInFlight ∧
    nextState (hostMove .reset { with32 [(0, 1#32)] 0 with phase := .emit }) = some State.reset := by decide
/-- spec/30_encoding.md R78: nothing happens in IDLE. -/
theorem test_idle : nextState (exec (.idle .e64) State.reset) = some State.reset ∧
    nextState (step State.reset) = some State.reset := by decide
/-- spec/40_draw.md R93: the rows of the phase table. -/
theorem test_phases : nextPhase Config.params .seed = .regen ∧ nextPhase Config.params .regen = .emit ∧
    nextPhase Config.params .emit = .idle ∧ entryPhase true false = .seed ∧ entryPhase false true = .regen ∧
    entryPhase false false = .emit := by decide
/-- `withFetchWord` makes the next step run the instruction: DRAW32's byte, and the code of EMIT64. -/
theorem test_fetch_word : fetch (State.reset.withFetchWord 8 0x20) =
      .command .draw32 { State.reset with cmdWidth := 0x20#8 } ∧
    fetch (State.reset.withFetchWord 4 0b1011) = .microOp .emit64 { State.reset with phase := .emit, sel := .e64 } := by
  decide
/-- spec/60_exceptions.md R182: the debug view exists only with HAS_DEBUG. -/
theorem test_debug_view : debugView Config.params State.reset = none ∧
    debugView { Config.params with hasDebug := true } State.reset = some (625#10, 313#9, 0#32, 0#32) := by decide
/-- spec/30_encoding.md R79: a faulting line leaves the variable; P4, line 4. -/
theorem test_host_fault_keeps_handle : (match runLine { block := State.reset, handles := [7#64] } (.draw 0x10#8 0) with
    | .next h => h.handles
    | .fault _ => []
    | .refused _ => []) = [7#64] := by decide

/-! ### Witnesses -/

/-- The array that holds `f k` at each index. -/
def tabulated {w : Nat} (n : Nat) (f : Nat → BitVec w) : Mem w := (List.range n).map fun i => (i, f i)

theorem tabulated_lookup {w n k : Nat} (f : Nat → BitVec w) (h : k < n) : memLookup (tabulated n f) k = some (f k) := by
  have key : ∀ l : List Nat, k ∈ l → memLookup (l.map fun i => (i, f i)) k = some (f k) := by
    intro l
    induction l with
    | nil => intro h; simp at h
    | cons a t ih =>
      intro h
      rw [List.map_cons, memLookup_cons]
      split_ifs with ha
      · rw [ha]
      · exact ih ((List.mem_cons.1 h).resolve_left fun e => ha e.symm)
  exact key _ (List.mem_range.2 h)

theorem tabulated_read {w n k : Nat} (f : Nat → BitVec w) (h : k < n) : memRead (tabulated n f) k = f k :=
  memRead_of_lookup (tabulated_lookup f h)

/-- A space of `n` words that all hold `v`. -/
def filled {w : Nat} (n : Nat) (v : BitVec w) : Mem w := tabulated n fun _ => v

theorem filled_lookup {w n i : Nat} (v : BitVec w) (h : i < n) : memLookup (filled n v) i = some v :=
  tabulated_lookup (fun _ => v) h

theorem filled_read {w n i : Nat} (v : BitVec w) (h : i < n) : memRead (filled n v) i = v :=
  memRead_of_lookup (filled_lookup v h)

theorem filled_wf {w : Nat} (n : Nat) (v : BitVec w) : Mem.wf n (filled n v) := by
  refine ⟨?_, fun c hc => ?_⟩
  · rw [filled, tabulated, List.pairwise_map]
    exact List.pairwise_lt_range
  · obtain ⟨i, hi, rfl⟩ := List.mem_map.1 hc
    exact List.mem_range.1 hi

theorem filled_full {w : Nat} (n : Nat) (v : BitVec w) : memFull n (filled n v) := fun i hi => by
  rw [filled_lookup v hi]; rfl

/-- E32 full at a cursor, in a phase; E64 at rest, not seeded. -/
def full32 (idx : Nat) (ph : Phase) : State := { with32 (filled 624 1#32) idx with phase := ph }

/-- E64 full at a cursor, in a phase; E32 at rest, not seeded. -/
def full64 (idx : Nat) (ph : Phase) : State := { with64 (filled 312 1#64) idx with phase := ph, sel := .e64 }

theorem engineOk_fresh {w cw n : Nat} {e : Engine w cw} (hm : e.mt = []) (hi : e.idx.toNat = n + 1) : EngineOk n e :=
  ⟨hm ▸ mem_wf_nil _, by omega, fun h => by omega⟩

theorem engineOk_filled {w cw n : Nat} {e : Engine w cw} (v : BitVec w) (hm : e.mt = filled n v) (hi : e.idx.toNat ≤ n) :
    EngineOk n e := ⟨hm ▸ filled_wf _ _, by omega, fun _ => hm ▸ filled_full _ _⟩

theorem reset_ok32 : EngineOk 624 State.reset.e32 := engineOk_fresh rfl rfl
theorem reset_ok64 : EngineOk 312 State.reset.e64 := engineOk_fresh rfl rfl
theorem reset_rests32 : Resting 624 State.reset.e32 := .inl rfl
theorem reset_rests64 : Resting 312 State.reset.e64 := .inl rfl

theorem idx_full32 {i : Nat} (ph : Phase) (h : i ≤ 624) : (full32 i ph).e32.idx.toNat = i := by
  show (BitVec.ofNat 10 i).toNat = i
  rw [BitVec.toNat_ofNat, Nat.mod_eq_of_lt (by omega)]

theorem idx_full64 {i : Nat} (ph : Phase) (h : i ≤ 312) : (full64 i ph).e64.idx.toNat = i := by
  show (BitVec.ofNat 9 i).toNat = i
  rw [BitVec.toNat_ofNat, Nat.mod_eq_of_lt (by omega)]

theorem mt_full32 (i : Nat) (ph : Phase) : (full32 i ph).e32.mt = filled 624 1#32 := by simp only [full32, with32]
theorem mt_full64 (i : Nat) (ph : Phase) : (full64 i ph).e64.mt = filled 312 1#64 := by simp only [full64, with64]

theorem ok_full32 {i : Nat} (ph : Phase) (h : i ≤ 624) : EngineOk 624 (full32 i ph).e32 :=
  engineOk_filled 1#32 (mt_full32 i ph) ((idx_full32 ph h).symm ▸ h)
theorem ok_full64 {i : Nat} (ph : Phase) (h : i ≤ 312) : EngineOk 312 (full64 i ph).e64 :=
  engineOk_filled 1#64 (mt_full64 i ph) ((idx_full64 ph h).symm ▸ h)

theorem inv_full32 {i : Nat} {ph : Phase} (h : i ≤ 624) (hc : CursorOfPhase 624 ph (full32 i ph).e32) :
    Inv (full32 i ph) := ⟨ok_full32 ph h, reset_ok64, hc, reset_rests64⟩
theorem inv_full64 {i : Nat} {ph : Phase} (h : i ≤ 312) (hc : CursorOfPhase 312 ph (full64 i ph).e64) :
    Inv (full64 i ph) := ⟨reset_ok32, ok_full64 ph h, reset_rests32, hc⟩

/-- The legal states at reset and at the boundary values of the cursor, in every phase. -/
theorem witness_atRest_reset : AtRest State.reset := ⟨rfl, reset_ok32, reset_ok64, reset_rests32, reset_rests64⟩
theorem witness_atRest_full32 : AtRest (full32 1 .idle) ∧ AtRest (full32 624 .idle) :=
  ⟨⟨rfl, inv_full32 (by decide) (.inr ⟨by decide, by decide⟩)⟩, ⟨rfl, inv_full32 (by decide) (.inr ⟨by decide, by decide⟩)⟩⟩
theorem witness_atRest_full64 : AtRest (full64 1 .idle) ∧ AtRest (full64 312 .idle) :=
  ⟨⟨rfl, inv_full64 (by decide) (.inr ⟨by decide, by decide⟩)⟩, ⟨rfl, inv_full64 (by decide) (.inr ⟨by decide, by decide⟩)⟩⟩
theorem witness_inv_emit32 : Inv (full32 0 .emit) ∧ Inv (full32 623 .emit) :=
  ⟨inv_full32 (by decide) (by show _ < _; decide), inv_full32 (by decide) (by show _ < _; decide)⟩
theorem witness_inv_emit64 : Inv (full64 0 .emit) ∧ Inv (full64 311 .emit) :=
  ⟨inv_full64 (by decide) (by show _ < _; decide), inv_full64 (by decide) (by show _ < _; decide)⟩
theorem witness_inv_regen : Inv (full32 624 .regen) ∧ Inv (full64 312 .regen) :=
  ⟨inv_full32 (by decide) (idx_full32 _ (by decide)), inv_full64 (by decide) (idx_full64 _ (by decide))⟩
theorem witness_inv_seed : Inv { State.reset with phase := .seed } ∧ Inv { State.reset with phase := .seed, sel := .e64 } :=
  ⟨⟨reset_ok32, reset_ok64, rfl, reset_rests64⟩, ⟨reset_ok32, reset_ok64, reset_rests32, rfl⟩⟩

/-- `StepKeepsLegalStates`: a legal state and its next state. -/
theorem witness_StepKeepsLegalStates : Inv (full32 0 .emit) ∧ ∃ t, step (full32 0 .emit) = .next t :=
  ⟨witness_inv_emit32.1, _, rfl⟩

/-- `CommandByteMap`, `ReservedCommandFaults`, `FaultLeavesNoTrace`: widths on either side of the two supported ones. -/
theorem witness_reserved_width : ∀ b ∈ [0x1F#8, 0x21#8, 0x3F#8, 0x41#8, 0x00#8, 0xFF#8], b ≠ 0x20#8 ∧ b ≠ 0x40#8 := by
  decide
/-- `MicroOperationCodes`: the least and the greatest unused code. -/
theorem witness_MicroOperationCodes : (0b0100#4).getLsbD 2 = true ∧ (0b1111#4).getLsbD 2 = true := by decide
/-- `DecodeAndEncodeAgree`. -/
theorem witness_DecodeAndEncodeAgree : (Instr.reserved 0xFF#8).wellFormed = true ∧
    decode (.uop 0b1000#4) = .ok (.idle .e64) := by decide
/-- `StepRunsPresentedCommand`. -/
theorem witness_StepRunsPresentedCommand :
    State.reset.phase = .idle ∧
    ({ State.reset with host := [.command 0x20#8 5#64, .reset] }).host = .command 0x20#8 5#64 :: [.reset] ∧
    decode (.command 0x20#8) = .ok .draw32 := by decide
/-- `StepRunsMicroOperation`: each of the three phases; a waiting command and none. -/
theorem witness_StepRunsMicroOperation :
    decode (.uop (encodeUop .e32 .seed)) = .ok .seed32 ∧ decode (.uop (encodeUop .e64 .regen)) = .ok .regen64 ∧
    decode (.uop (encodeUop .e64 .emit)) = .ok .emit64 ∧ (full64 0 .emit).phase ≠ .idle ∧
    (full64 0 .emit).host.head? ≠ some .reset ∧ [HostEvent.command 0x20#8 0#64].head? ≠ some .reset := by decide
/-- `BusyBlockAcceptsNoCommand`: a busy block, alone and with handles, and with a command waiting, in a step that goes on. -/
theorem witness_BusyBlockAcceptsNoCommand : (full32 623 .emit).phase ≠ .idle ∧
    ({ block := full64 0 .emit, handles := [7#64] } : HostedBlock).block.phase ≠ .idle ∧
    ({ full32 623 .emit with host := [.command 0x20#8 5#64] }).host = .command 0x20#8 5#64 :: [] ∧
    ∃ t, step { full32 623 .emit with host := [.command 0x20#8 5#64] } = .next t :=
  ⟨by decide, by decide, rfl, _, rfl⟩
/-- `RestingMachineWaits`. -/
theorem witness_RestingMachineWaits : State.reset.phase = .idle ∧ State.reset.host = [] := by decide
/-- `ResetEventEntersRestingState`: inside a command. -/
theorem witness_ResetEventEntersRestingState :
    ({ full32 0 .emit with host := [.reset] }).host = .reset :: [] := rfl
/-- `Draw32Result`, `LaterDrawIgnoresHandle`: each clause at the ends of its range. -/
theorem witness_Draw32Result : ∀ i ∈ [625, 624, 623, 0], (with32 [] i).e32.idx.toNat = i ∧ i ≤ 625 := by decide
/-- `Draw64Result`, `LaterDrawIgnoresHandle`: each clause at the ends of its range. -/
theorem witness_Draw64Result : ∀ i ∈ [313, 312, 311, 0], (with64 [] i).e64.idx.toNat = i ∧ i ≤ 313 := by decide
/-- `LaterDrawIgnoresHandle`: two states that differ in the handle and in the other engine. -/
theorem witness_LaterDrawIgnoresHandle :
    (full32 624 .idle).e32.idx.toNat ≤ 624 ∧
    ({ full32 624 .idle with cmdHandle := 9#64, e64 := (full64 5 .idle).e64 }).e32.mt = (full32 624 .idle).e32.mt ∧
    (full64 312 .idle).e64.idx.toNat ≤ 312 ∧
    ({ full64 312 .idle with cmdHandle := 9#64 }).e64.mt = (full64 312 .idle).e64.mt := ⟨by decide, rfl, by decide, rfl⟩
/-- `PhaseMachineRefinesDraw`: the three entries. -/
theorem witness_PhaseMachineRefinesDraw : State.reset.host.head? ≠ some .reset ∧
    (with32 [] 624).host.head? ≠ some .reset ∧ (with32 [] 0).host.head? ≠ some .reset := by decide
/-- `ZeroSeedStreamIsDefaultStream`. -/
theorem witness_ZeroSeedStreamIsDefaultStream : AtRest State.reset ∧ State.reset.e32.idx.toNat = 625 ∧
    State.reset.e64.idx.toNat = 313 ∧ (0x0000000100000000#64).extractLsb' 0 32 = 0#32 ∧
    (0xFFFFFFFF00001105#64).extractLsb' 0 32 = Config.e32.defSeed :=
  ⟨witness_atRest_reset, by decide, by decide, by decide, by decide⟩
/-- `StreamIsFunctionOfFirstSeed`: two runs that differ in everything the rule names. -/
theorem witness_StreamIsFunctionOfFirstSeed :
    AtRest State.reset ∧ AtRest (full64 312 .idle) ∧ State.reset.e32.idx.toNat = 625 ∧
    (full64 312 .idle).e32.idx.toNat = 625 ∧
    (([(0x20#8, 4357#64), (0x40#8, 2#64), (0x20#8, 9#64)] : List (Byte × Word64)).filter (·.1 = 0x20#8)).length =
      (([(0x10#8, 0#64), (0x20#8, 0xFFFFFFFF00001105#64), (0x20#8, 1#64)] : List (Byte × Word64)).filter
        (·.1 = 0x20#8)).length ∧
    (([(0x20#8, 4357#64), (0x40#8, 2#64), (0x20#8, 9#64)] : List (Byte × Word64)).filter
        (·.1 = 0x20#8)).head?.map (handleIn32 ·.2) =
      (([(0x10#8, 0#64), (0x20#8, 0xFFFFFFFF00001105#64), (0x20#8, 1#64)] : List (Byte × Word64)).filter
        (·.1 = 0x20#8)).head?.map (handleIn32 ·.2) :=
  ⟨witness_atRest_reset, witness_atRest_full64.2, by decide, by decide, by decide, by decide⟩
/-- `StreamIsFunctionOfFirstSeed`, the E64 half. -/
theorem witness_StreamIsFunctionOfFirstSeed_e64 :
    AtRest State.reset ∧ AtRest (full32 624 .idle) ∧ State.reset.e64.idx.toNat = 313 ∧
    (full32 624 .idle).e64.idx.toNat = 313 ∧
    (([(0x40#8, 2#64), (0x20#8, 2#64)] : List (Byte × Word64)).filter (·.1 = 0x40#8)).length =
      (([(0x10#8, 0#64), (0x40#8, 2#64)] : List (Byte × Word64)).filter (·.1 = 0x40#8)).length ∧
    (([(0x40#8, 2#64), (0x20#8, 2#64)] : List (Byte × Word64)).filter (·.1 = 0x40#8)).head?.map (handleIn64 ·.2) =
      (([(0x10#8, 0#64), (0x40#8, 2#64)] : List (Byte × Word64)).filter (·.1 = 0x40#8)).head?.map (handleIn64 ·.2) :=
  ⟨witness_atRest_reset, witness_atRest_full32.2, by decide, by decide, by decide, by decide⟩
/-- `CursorAndRegenerationsAfterDraws`. -/
theorem witness_CursorAndRegenerationsAfterDraws : ([5#64] : List Word64) ≠ [] := by decide
theorem engine_with_words {w : Nat} (cw n : Nat) (f : Nat → BitVec w) :
    ∃ e0 : Engine w cw, ∀ k, k < n → memRead e0.mt k = f k :=
  ⟨{ engineOf w cw [] 0 with mt := tabulated n f }, fun _ hk => tabulated_read f hk⟩

/-- `StreamClosedFormula`: an engine whose array is the one SEED writes, and a draw. -/
theorem witness_StreamClosedFormula_e32 : 0 < ([5#64] : List Word64).length ∧
    ∃ e0 : Engine 32 10, ∀ k, k < 624 → memRead e0.mt k = seedWord32 (firstSeed ((5#64).extractLsb' 0 32)) k :=
  ⟨by decide, engine_with_words 10 624 _⟩
theorem witness_StreamClosedFormula_e64 : 0 < ([5#64] : List Word64).length ∧
    ∃ e0 : Engine 64 9, ∀ k, k < 312 → memRead e0.mt k = seedWord64 (firstSeed 5#64) k :=
  ⟨by decide, engine_with_words 9 312 _⟩
/-- `SeedingReadsNoArray`. -/
theorem witness_SeedingReadsNoArray : Mem.wf 624 ([] : Mem 32) ∧ Mem.wf 624 (filled 624 7#32) ∧ Mem.wf 312 ([] : Mem 64) ∧
    Mem.wf 312 (filled 312 7#64) := ⟨mem_wf_nil _, filled_wf _ _, mem_wf_nil _, filled_wf _ _⟩
/-- `SeededArrayHasNoZeroWord`: the degenerate seed. -/
theorem witness_SeededArrayHasNoZeroWord :
    ({ State.reset with hIn := 0x80000000#64 }).hIn.extractLsb' 0 32 = 0x80000000#32 := by decide
/-- The parametric statements of regeneration and tempering: the records of the block and of V-R9, V-R10. -/
theorem witness_parameters : Config.e32.wf ∧ Config.e64.wf ∧ toy32.wf ∧ toy64.wf ∧
    Config.e32.lags = [397] ∧ Config.e64.lags = [63, 151, 224] ∧ toy32.lags ≠ [] ∧ toy64.lags ≠ [] ∧
    Config.e32.mag0 = 0#32 ∧ Config.e64.mag0 = 0#64 :=
  ⟨by decide, by decide, by decide, by decide, by decide, by decide, by decide, by decide, by decide, by decide⟩
/-- `RangesAgreeWithModuloForm`: an index in each range of either form, at its ends. -/
theorem witness_RangesAgreeWithModuloForm : 0 < Config.e32.n - 397 ∧ 226 < Config.e32.n - 397 ∧ Config.e32.n - 397 ≤ 227 ∧
    622 < Config.e32.n - 1 ∧ 87 < Config.e64.n - 224 ∧ Config.e64.n - 224 ≤ 88 ∧ 160 < Config.e64.n - 151 ∧
    Config.e64.n - 151 ≤ 161 ∧ 248 < Config.e64.n - 63 ∧ Config.e64.n - 63 ≤ 249 ∧ 310 < Config.e64.n - 1 := by decide
/-- `RegenerationIsLinear`: three arrays, one the exclusive OR of the others, and a zero array. -/
theorem witness_RegenerationIsLinear :
    (∀ k, k < 4 → memRead (filled 4 6#32) k = memRead (filled 4 5#32) k ^^^ memRead (filled 4 3#32) k) ∧
    ∀ k, k < 4 → memRead (filled 4 0#32) k = 0#32 :=
  ⟨fun k hk => by simp [filled_read _ hk], fun k hk => filled_read _ hk⟩
/-- `CombineSplitsAtR`: the last bit below the split and the first one at it. -/
theorem witness_CombineSplitsAtR : Config.e64.wf ∧ 30 < Config.e64.r ∧ ¬ 31 < Config.e64.r ∧ 31 < 64 := by decide
/-- `Emit32Result`, `Emit64Result`, `EmissionAdvancesCursor`: the ends of the range. -/
theorem witness_EmitResult : (full32 0 .emit).e32.idx.toNat < 624 ∧ (full32 623 .emit).e32.idx.toNat < 624 ∧
    (full64 0 .emit).e64.idx.toNat < 312 ∧ (full64 311 .emit).e64.idx.toNat < 312 := by decide
/-- `EmitStopsWithoutReadyWord`: the least such cursor and the greatest one the register holds. -/
theorem witness_EmitStopsWithoutReadyWord : 624 ≤ (with32 [] 624).e32.idx.toNat ∧ 624 ≤ (with32 [] 1023).e32.idx.toNat ∧
    312 ≤ (with64 [] 312).e64.idx.toNat ∧ 312 ≤ (with64 [] 511).e64.idx.toNat := by decide
/-- `RoundingIsNearestEven`: a tie, `2^53 + 1` over 1, and the other neighbour. -/
theorem witness_RoundingIsNearestEven : 0 < 2 ^ 53 + 1 ∧ 0 < 1 ∧ (2 ^ 52 + 1 : Nat) < 2 ^ 53 ∧
    f64OfRat (2 ^ 53 + 1) 1 = { mant := 2 ^ 52, exp := 1 } := by decide
/-- `ResultPatternIsNormal`: both widths, zero and the least and greatest non-zero word. -/
theorem witness_ResultPatternIsNormal : (0#32 = 0#32) ∧ (1#32 ≠ 0#32) ∧ (0xFFFFFFFF#32 ≠ 0#32) ∧ (1#64 ≠ 0#64) ∧
    (0xFFFFFFFFFFFFFFFF#64 ≠ 0#64) := by decide
/-- `ConversionIsMonotone`: neighbours. -/
theorem witness_ConversionIsMonotone : (0xFFFFFFFE#32).toNat < (0xFFFFFFFF#32).toNat ∧
    (0xFFFFFFFFFFFFFBFF#64).toNat ≤ (0xFFFFFFFFFFFFFC00#64).toNat := by decide
/-- `OnlyReservedWidthsFault`, `InstructionsTouchOneEngine`, `NoCommandReseeds`: instructions that answer a next
state: a fault, an emission of either engine, a draw of either engine. -/
theorem witness_exec_next : (∃ t, exec (.reserved 0x10#8) State.reset = .next t) ∧
    (∃ t, exec .emit32 (full32 623 .emit) = .next t) ∧ (∃ t, exec .emit64 (full64 311 .emit) = .next t) ∧
    (∃ t, exec .draw32 (full32 1 .idle) = .next t) ∧ ∃ t, exec .draw64 (full64 1 .idle) = .next t :=
  ⟨⟨_, rfl⟩, ⟨_, rfl⟩, ⟨_, rfl⟩, ⟨_, rfl⟩, ⟨_, rfl⟩⟩
/-- `NoCommandReseeds`: an initialized engine. -/
theorem witness_NoCommandReseeds : (full32 624 .idle).e32.idx.toNat ≤ 624 ∧
    (full64 312 .idle).e64.idx.toNat ≤ 312 := by decide
/-- `ArrayWrittenOnlyBySeedAndRegen`: a regeneration that changes the array of either engine. -/
theorem witness_ArrayWrittenOnlyBySeedAndRegen :
    (∃ t, exec .regen32 State.reset = .next t ∧ t.e32.mt ≠ State.reset.e32.mt) ∧
    ∃ t, exec .regen64 State.reset = .next t ∧ t.e64.mt ≠ State.reset.e64.mt := by
  refine ⟨⟨_, rfl, fun h => ?_⟩, ⟨_, rfl, fun h => ?_⟩⟩
  · have hf := regen_full Config.e32 State.reset.e32 0 (by decide)
    rw [show (regen Config.e32 State.reset.e32).mt = _ from h] at hf
    exact absurd hf (by decide)
  · have hf := regen_full Config.e64 State.reset.e64 0 (by decide)
    rw [show (regen Config.e64 State.reset.e64).mt = _ from h] at hf
    exact absurd hf (by decide)
/-- `ExactlyOneFlag`: a cursor of each kind, at the ends of its range. -/
theorem witness_ExactlyOneFlag : ∀ i ∈ [625, 624, 623, 0], (with32 [] i).e32.idx.toNat ≤ Config.e32.n + 1 := by decide
/-- `HostStoresHandleUnlessFault`, `EnginesAreIndependent`, `EveryQueuedCommandIsAnswered`, `OnlyReservedWidthsFault`,
`NoCommandReseeds`, `FaultLeavesNoTrace`: resting blocks. -/
theorem witness_resting_block : AtRest ({ block := full32 1 .idle, handles := [4357#64] } : HostedBlock).block ∧
    AtRest (full64 312 .idle) := ⟨witness_atRest_full32.1, witness_atRest_full64.2⟩

end Sys2Proof.Tests
end

section
/-! The rules of binary64 rounding (spec/00_scope.md R15): the exponent `ratLog2`, the integer rounding `roundDivEven`, the
significand of `f64OfRat`, and what a competitor with at most 53 significant bits looks like in the result's unit. -/

namespace Sys2Proof.Machine

/-! ### Scaling a quotient by a power of two -/

/-- Scaling within the natural numbers: the positive part of the exponent goes to the numerator, the negative part to the
denominator. -/
theorem natCast_div_scaled (a b : Nat) (e : Int) :
    ((a * 2 ^ e.toNat : Nat) : Rat) / ((b * 2 ^ (-e).toNat : Nat) : Rat) = (a : Rat) / b * 2 ^ e := by
  have hpow : (2 : Rat) ^ e = 2 ^ e.toNat / 2 ^ (-e).toNat := by
    rw [← zpow_natCast, ← zpow_natCast, ← zpow_sub₀ two_ne_zero, Int.toNat_sub_toNat_neg]
  push_cast
  rw [hpow, mul_div_mul_comm]

/-- The comparison of `ratLog2`, read as a comparison of rationals. -/
theorem scaled_le_iff_zpow_le_div {b : Nat} (a : Nat) (hb : 0 < b) (t : Int) :
    b * 2 ^ t.toNat ≤ a * 2 ^ (-t).toNat ↔ (2 : Rat) ^ t ≤ (a : Rat) / b := by
  have hscaled := natCast_div_scaled a b (-t)
  rw [neg_neg] at hscaled
  have hden : (0 : Rat) < ((b * 2 ^ t.toNat : Nat) : Rat) := by positivity
  rw [← Nat.cast_le (α := Rat), ← one_le_div hden, hscaled, zpow_neg, ← div_eq_mul_inv, one_le_div (by positivity)]

/-! ### The exponent -/

/-- The difference of the binary logarithms is the exponent of the quotient or one more. -/
theorem div_between_log2_sub {a b : Nat} (ha : 0 < a) (hb : 0 < b) :
    (2 : Rat) ^ ((a.log2 : Int) - b.log2 - 1) ≤ (a : Rat) / b ∧
      (a : Rat) / b < 2 ^ ((a.log2 : Int) - b.log2 + 1) := by
  have hloA : (2 : Rat) ^ a.log2 ≤ a := mod_cast Nat.log2_self_le ha.ne'
  have hhiA : (a : Rat) < 2 ^ (a.log2 + 1) := mod_cast Nat.lt_log2_self
  have hloB : (2 : Rat) ^ b.log2 ≤ b := mod_cast Nat.log2_self_le hb.ne'
  have hhiB : (b : Rat) < 2 ^ (b.log2 + 1) := mod_cast Nat.lt_log2_self
  have hb' : (0 : Rat) < b := mod_cast hb
  have hquot (m n : Nat) : (2 : Rat) ^ ((m : Int) - n) = 2 ^ m / 2 ^ n := by
    rw [zpow_sub₀ two_ne_zero, zpow_natCast, zpow_natCast]
  constructor
  · calc (2 : Rat) ^ ((a.log2 : Int) - b.log2 - 1) = 2 ^ a.log2 / 2 ^ (b.log2 + 1) := by
          rw [← hquot]; congr 1; push_cast; ring
      _ ≤ a / b := div_le_div₀ (by positivity) hloA hb' hhiB.le
  · calc (a : Rat) / b < 2 ^ (a.log2 + 1) / 2 ^ b.log2 := div_lt_div₀ hhiA hloB (by positivity) (by positivity)
      _ = 2 ^ ((a.log2 : Int) - b.log2 + 1) := by
          rw [← hquot]; congr 1; push_cast; ring

theorem ratLog2_bounds {a b : Nat} (ha : 0 < a) (hb : 0 < b) :
    (2 : Rat) ^ ratLog2 a b ≤ (a : Rat) / b ∧ (a : Rat) / b < 2 ^ (ratLog2 a b + 1) := by
  obtain ⟨hlo, hhi⟩ := div_between_log2_sub ha hb
  simp only [ratLog2, scaled_le_iff_zpow_le_div a hb]
  split
  · next hle => exact ⟨hle, hhi⟩
  · next hlt => exact ⟨hlo, by simpa using hlt⟩

/-! ### Rounding a quotient to an integer -/

/-- `roundDivEven` is less than half a unit away, or exactly half a unit and even. -/
theorem roundDivEven_half_unit {a b : Nat} (hb : 0 < b) :
    |(a : Rat) / b - roundDivEven a b| < 1 / 2 ∨
      |(a : Rat) / b - roundDivEven a b| = 1 / 2 ∧ roundDivEven a b % 2 = 0 := by
  have hb' : (0 : Rat) < b := mod_cast hb
  have hquot : (a : Rat) / b = (a / b : Nat) + ((a % b : Nat) : Rat) / b := by
    rw [eq_comm, ← eq_sub_iff_add_eq', div_eq_iff hb'.ne', sub_mul, div_mul_cancel₀ _ hb'.ne', eq_sub_iff_add_eq]
    exact_mod_cast Nat.mod_add_div' a b
  have hrem : 0 ≤ ((a % b : Nat) : Rat) / b := by positivity
  have hrem1 : ((a % b : Nat) : Rat) / b < 1 := (div_lt_one hb').2 (mod_cast Nat.mod_lt a hb)
  rw [hquot]
  simp only [roundDivEven]
  split
  · next hlow =>
    have : ((a % b : Nat) : Rat) / b < 1 / 2 := by
      rw [div_lt_div_iff₀ hb' two_pos]; exact_mod_cast (by omega : a % b * 2 < 1 * b)
    left; rw [abs_lt]; constructor <;> linarith
  split
  · next hhigh =>
    have : 1 / 2 < ((a % b : Nat) : Rat) / b := by
      rw [div_lt_div_iff₀ two_pos hb']; exact_mod_cast (by omega : 1 * b < a % b * 2)
    left; push_cast; rw [abs_lt]; constructor <;> linarith
  · have htie : ((a % b : Nat) : Rat) / b = 1 / 2 := by
      rw [div_eq_div_iff hb'.ne' two_ne_zero]; exact_mod_cast (by omega : a % b * 2 = 1 * b)
    right
    refine ⟨?_, by omega⟩
    rw [htie]
    rcases Nat.mod_two_eq_zero_or_one (a / b) with h | h <;> rw [h] <;> push_cast <;> norm_num [abs_div]

/-- Away from its own rounding, every integer is at least half a unit from the quotient. -/
theorem half_le_abs_sub_natCast {x : Rat} {m j : Nat} (hm : |x - m| ≤ 1 / 2) (hj : j ≠ m) : 1 / 2 ≤ |x - j| := by
  have hsep : (1 : Rat) ≤ |(j : Rat) - m| := by
    have := Int.one_le_abs (sub_ne_zero.2 (Nat.cast_injective.ne hj : (j : Int) ≠ m))
    exact_mod_cast this
  have htri := abs_sub_le (j : Rat) x m
  rw [abs_sub_comm (j : Rat) x] at htri
  linarith

/-! ### The significand -/

/-- The quotient in units of the last place of its binade: `a / b` scaled into `[2^52, 2^53)`. -/
def scaledQuotient (a b : Nat) : Rat := (a : Rat) / b * 2 ^ (52 - ratLog2 a b)

/-- The rounded significand of `f64OfRat`, before a carry to `2^53` is moved into the exponent. -/
def roundedMant (a b : Nat) : Nat :=
  roundDivEven (a * 2 ^ (52 - ratLog2 a b).toNat) (b * 2 ^ (ratLog2 a b - 52).toNat)

theorem scaledQuotient_bounds {a b : Nat} (ha : 0 < a) (hb : 0 < b) :
    2 ^ 52 ≤ scaledQuotient a b ∧ scaledQuotient a b < 2 ^ 53 := by
  obtain ⟨hlo, hhi⟩ := ratLog2_bounds ha hb
  have hpos : (0 : Rat) < 2 ^ (52 - ratLog2 a b) := by positivity
  constructor
  · calc (2 : Rat) ^ 52 = 2 ^ ratLog2 a b * 2 ^ (52 - ratLog2 a b) := by
          rw [← zpow_add₀ two_ne_zero, add_sub_cancel]; rfl
      _ ≤ scaledQuotient a b := mul_le_mul_of_nonneg_right hlo hpos.le
  · calc scaledQuotient a b < 2 ^ (ratLog2 a b + 1) * 2 ^ (52 - ratLog2 a b) := mul_lt_mul_of_pos_right hhi hpos
      _ = 2 ^ 53 := by rw [← zpow_add₀ two_ne_zero, add_right_comm, add_sub_cancel]; rfl

theorem roundedMant_half_unit (a : Nat) {b : Nat} (hb : 0 < b) :
    |scaledQuotient a b - roundedMant a b| < 1 / 2 ∨
      |scaledQuotient a b - roundedMant a b| = 1 / 2 ∧ roundedMant a b % 2 = 0 := by
  have hround := roundDivEven_half_unit (a := a * 2 ^ (52 - ratLog2 a b).toNat)
    (b := b * 2 ^ (-(52 - ratLog2 a b)).toNat) (by positivity)
  rwa [natCast_div_scaled, neg_sub] at hround

theorem abs_scaledQuotient_sub_roundedMant_le (a : Nat) {b : Nat} (hb : 0 < b) :
    |scaledQuotient a b - roundedMant a b| ≤ 1 / 2 :=
  (roundedMant_half_unit a hb).elim le_of_lt fun h => h.1.le

theorem roundedMant_bounds {a b : Nat} (ha : 0 < a) (hb : 0 < b) :
    2 ^ 52 ≤ roundedMant a b ∧ roundedMant a b ≤ 2 ^ 53 := by
  obtain ⟨hlo, hhi⟩ := scaledQuotient_bounds ha hb
  obtain ⟨hbelow, habove⟩ := abs_le.1 (abs_scaledQuotient_sub_roundedMant_le a hb)
  constructor
  · by_contra hlt
    have : (roundedMant a b : Rat) + 1 ≤ 2 ^ 52 := mod_cast (by omega : roundedMant a b + 1 ≤ 2 ^ 52)
    linarith
  · by_contra hgt
    have : (2 : Rat) ^ 53 + 1 ≤ roundedMant a b := mod_cast (by omega : 2 ^ 53 + 1 ≤ roundedMant a b)
    linarith

/-- The rounded significand is nearest, ties to even, among the integers and everything below the binade (all in units of the
last place). -/
theorem roundedMant_nearest {a b : Nat} (ha : 0 < a) (hb : 0 < b) {v : Rat} (hv : (∃ j : Nat, v = j) ∨ v < 2 ^ 52) :
    |scaledQuotient a b - roundedMant a b| ≤ |scaledQuotient a b - v| ∧
      (|scaledQuotient a b - roundedMant a b| = |scaledQuotient a b - v| → v ≠ roundedMant a b →
        roundedMant a b % 2 = 0) := by
  have hhalf := abs_scaledQuotient_sub_roundedMant_le a hb
  have hint (j : Nat) : |scaledQuotient a b - roundedMant a b| ≤ |scaledQuotient a b - j| := by
    rcases eq_or_ne j (roundedMant a b) with rfl | hj
    · exact le_rfl
    · exact hhalf.trans (half_le_abs_sub_natCast hhalf hj)
  rcases hv with ⟨j, rfl⟩ | hlow
  · refine ⟨hint j, fun heq hne => ?_⟩
    have hfar := half_le_abs_sub_natCast hhalf (ne_of_apply_ne _ hne)
    rcases roundedMant_half_unit a hb with hlt | ⟨-, heven⟩
    · exact absurd (heq ▸ hlt) hfar.not_gt
    · exact heven
  · -- `2 ^ 52` lies between `v` and the quotient, so it is the nearer of the two
    have hlo := (scaledQuotient_bounds ha hb).1
    have hcloser : |scaledQuotient a b - (2 ^ 52 : Nat)| < |scaledQuotient a b - v| := by
      push_cast
      rw [abs_of_nonneg (by linarith), abs_of_pos (by linarith)]
      linarith
    have hlt := (hint (2 ^ 52)).trans_lt hcloser
    exact ⟨hlt.le, fun heq => absurd heq hlt.ne⟩

/-! ### The result and its competitors -/

theorem f64OfRat_of_pos {a : Nat} (ha : 0 < a) (b : Nat) :
    f64OfRat a b = if roundedMant a b = 2 ^ 53 then { mant := 2 ^ 52, exp := ratLog2 a b - 51 }
      else { mant := roundedMant a b, exp := ratLog2 a b - 52 } := if_neg ha.ne'

/-- The carry moves a factor 2 from the significand to the exponent and leaves the value alone. -/
theorem f64OfRat_value {a : Nat} (ha : 0 < a) (b : Nat) :
    (f64OfRat a b).value = roundedMant a b * 2 ^ (ratLog2 a b - 52) := by
  rw [f64OfRat_of_pos ha]
  split
  · next hcarry =>
    have hexp : ratLog2 a b - 51 = ratLog2 a b - 52 + 1 := by ring
    rw [F64.value, hcarry, hexp, zpow_add_one₀ two_ne_zero]
    push_cast
    ring
  · rfl

theorem f64OfRat_mant_bounds {a b : Nat} (ha : 0 < a) (hb : 0 < b) :
    2 ^ 52 ≤ (f64OfRat a b).mant ∧ (f64OfRat a b).mant < 2 ^ 53 := by
  obtain ⟨hlo, hhi⟩ := roundedMant_bounds ha hb
  rw [f64OfRat_of_pos ha]
  split
  · exact ⟨le_rfl, by norm_num⟩
  · next hcarry => exact ⟨hlo, lt_of_le_of_ne hhi hcarry⟩

theorem f64OfRat_mant_even {a b : Nat} (ha : 0 < a) (heven : roundedMant a b % 2 = 0) :
    (f64OfRat a b).mant % 2 = 0 := by
  rw [f64OfRat_of_pos ha]
  split
  · norm_num
  · exact heven

/-- In any unit `2 ^ e`, a number of at most 53 bits is a whole number of units or less than `2 ^ 52` of them. -/
theorem F64.value_on_grid_or_lt (u : F64) (hu : u.mant < 2 ^ 53) (e : Int) :
    ∃ v : Rat, u.value = v * 2 ^ e ∧ ((∃ j : Nat, v = j) ∨ v < 2 ^ 52) := by
  refine ⟨u.mant * 2 ^ (u.exp - e), ?_, ?_⟩
  · rw [F64.value, mul_assoc, ← zpow_add₀ two_ne_zero, sub_add_cancel]
  rcases le_or_gt e u.exp with hge | hlt
  · left
    refine ⟨u.mant * 2 ^ (u.exp - e).toNat, ?_⟩
    push_cast
    rw [← zpow_natCast, Int.toNat_of_nonneg (sub_nonneg.2 hge)]
  · right
    have hmant : (u.mant : Rat) < 2 ^ 53 := mod_cast hu
    calc (u.mant : Rat) * 2 ^ (u.exp - e) ≤ u.mant * 2 ^ (-1 : Int) :=
          mul_le_mul_of_nonneg_left (zpow_le_zpow_right₀ one_le_two (by omega)) (by positivity)
      _ < 2 ^ 53 * 2 ^ (-1 : Int) := mul_lt_mul_of_pos_right hmant (by positivity)
      _ = 2 ^ 52 := by norm_num

/-- Distances to the quotient, measured in units of the last place. -/
theorem abs_div_sub_mul_unit (a b : Nat) (v : Rat) :
    |(a : Rat) / b - v * 2 ^ (ratLog2 a b - 52)| = |scaledQuotient a b - v| * 2 ^ (ratLog2 a b - 52) := by
  have hunit : scaledQuotient a b * 2 ^ (ratLog2 a b - 52) = (a : Rat) / b := by
    rw [scaledQuotient, mul_assoc, ← zpow_add₀ two_ne_zero, sub_add_sub_cancel', sub_self, zpow_zero, mul_one]
  have hpos : (0 : Rat) < 2 ^ (ratLog2 a b - 52) := by positivity
  rw [← hunit, ← sub_mul, abs_mul, abs_of_pos hpos]

/-- Settles O36: in units of the last place the significand is the nearest integer, and every competitor is an integer too
or lies below the binade. -/
theorem roundingIsNearestEven : Obligations.RoundingIsNearestEven := by
  intro a b ha hb
  obtain ⟨hlo, hhi⟩ := f64OfRat_mant_bounds ha hb
  refine ⟨hlo, hhi, fun u hu => ?_⟩
  obtain ⟨v, huv, hv⟩ := F64.value_on_grid_or_lt u hu (ratLog2 a b - 52)
  obtain ⟨hnear, htie⟩ := roundedMant_nearest ha hb hv
  have hpos : (0 : Rat) < 2 ^ (ratLog2 a b - 52) := by positivity
  rw [f64OfRat_value ha, huv, abs_div_sub_mul_unit, abs_div_sub_mul_unit]
  refine ⟨mul_le_mul_of_nonneg_right hnear hpos.le, fun heq hne => f64OfRat_mant_even ha (htie ?_ ?_)⟩
  · exact mul_right_cancel₀ hpos.ne' heq
  · exact ne_of_apply_ne (· * (2 : Rat) ^ (ratLog2 a b - 52)) hne

/-! ### The parameter record -/

/-- Settles O52, by evaluating each constraint on the two records of spec/00_scope.md R9. -/
theorem parametersSatisfyConstraints : Obligations.ParametersSatisfyConstraints := by
  have h32 : Config.e32.wf := by decide
  have h64 : Config.e64.wf := by decide
  exact ⟨rfl, rfl, rfl, rfl, h32, h64⟩

end Sys2Proof.Machine
end

section
/-! What one instruction can do to one engine (spec/10_state.md R22 to R36), said once for both widths: the effect of each
kind of action on the array and the cursor, and which kind each instruction is for each engine. -/

namespace Sys2Proof.Machine

variable {w cw : Nat}

/-! ### The effects on one engine -/

/-- What SEED leaves (spec/41_seed.md R113, R114): a full array, in canonical form if it was, and the cursor at `N`. -/
structure Seeded (p : EngineParams w) (e e' : Engine w cw) : Prop where
  wf : Mem.wf p.n e.mt → Mem.wf p.n e'.mt
  full : memFull p.n e'.mt
  idx : e'.idx.toNat = p.n

/-- What a draw does to its engine before EMIT, by the cursor (spec/40_draw.md R91 to R93). -/
inductive Refill (p : EngineParams w) : Engine w cw → Engine w cw → Prop
  | ready {e} (h : e.idx.toNat < p.n) : Refill p e e
  | exhausted {e} (h : e.idx.toNat = p.n) : Refill p e (regen p e)
  | uninit {e e₁} (h : e.idx.toNat = p.n + 1) (hs : Seeded p e e₁) : Refill p e (regen p e₁)

/-- The record is one of an array of `n > 0` words with a cursor register of `cw` bits that holds `n + 1`
(spec/00_scope.md R8, spec/10_state.md R23). -/
structure Sized (p : EngineParams w) (cw n : Nat) : Prop where
  size : p.n = n
  pos : 0 < n
  fits : n + 1 < 2 ^ cw

theorem sized_e32 : Sized Config.params.e32 10 624 := ⟨rfl, by decide, by decide⟩
theorem sized_e64 : Sized Config.params.e64 9 312 := ⟨rfl, by decide, by decide⟩

/-- What an instruction does with one engine. -/
inductive EngineAction where
  | keep
  | seed
  | regen
  | emit
  | draw

/-- The effect of an action on the engine. -/
inductive EngineEffect (p : EngineParams w) : EngineAction → Engine w cw → Engine w cw → Prop
  | keep {e e'} (h : e' = e) : EngineEffect p .keep e e'
  | seed {e e'} (hs : Seeded p e e') : EngineEffect p .seed e e'
  | regen {e} : EngineEffect p .regen e (regen p e)
  | emit {e} (h : e.idx.toNat < p.n) : EngineEffect p .emit e (emitEngine p e)
  | draw {e e₁} (hr : Refill p e e₁) : EngineEffect p .draw e (emitEngine p e₁)

/-- The action of an instruction on E32. -/
def action32 : Instr → EngineAction
  | .draw32 => .draw
  | .seed32 => .seed
  | .regen32 => .regen
  | .emit32 => .emit
  | _ => .keep

/-- The action of an instruction on E64. -/
def action64 : Instr → EngineAction
  | .draw64 => .draw
  | .seed64 => .seed
  | .regen64 => .regen
  | .emit64 => .emit
  | _ => .keep

theorem action32_eq_seed {i : Instr} : action32 i = .seed ↔ i = .seed32 := by cases i <;> simp [action32]
theorem action32_eq_regen {i : Instr} : action32 i = .regen ↔ i = .regen32 := by cases i <;> simp [action32]
theorem action32_eq_draw {i : Instr} : action32 i = .draw ↔ i = .draw32 := by cases i <;> simp [action32]
theorem action64_eq_seed {i : Instr} : action64 i = .seed ↔ i = .seed64 := by cases i <;> simp [action64]
theorem action64_eq_regen {i : Instr} : action64 i = .regen ↔ i = .regen64 := by cases i <;> simp [action64]
theorem action64_eq_draw {i : Instr} : action64 i = .draw ↔ i = .draw64 := by cases i <;> simp [action64]

/-! ### What an effect keeps -/

section
variable {p : EngineParams w} {n : Nat} {a : EngineAction} {e e₁ e' : Engine w cw}

theorem regen_idx_lt (hz : Sized p cw n) (e : Engine w cw) : (regen p e).idx.toNat < n := by simpa using hz.pos

/-- Before EMIT the cursor is below `N`: the precondition of spec/43_emit.md R145. -/
theorem Refill.idx_lt (hr : Refill p e e₁) (hz : Sized p cw n) : e₁.idx.toNat < n := by
  cases hr with
  | ready h => exact hz.size ▸ h
  | exhausted => exact regen_idx_lt hz _
  | uninit => exact regen_idx_lt hz _

theorem emitEngine_idx_toNat (hz : Sized p cw n) (h : e.idx.toNat < n) :
    (emitEngine p e).idx.toNat = e.idx.toNat + 1 := by
  have hfits := hz.fits
  rw [emitEngine_idx, BitVec.toNat_add, BitVec.toNat_ofNat, Nat.mod_eq_of_lt (a := 1) (by omega),
    Nat.mod_eq_of_lt (by omega)]

/-- An emission leaves the cursor in `[1, N]` (spec/43_emit.md R148). -/
theorem emitEngine_idx_mem (hz : Sized p cw n) (h : e.idx.toNat < n) :
    1 ≤ (emitEngine p e).idx.toNat ∧ (emitEngine p e).idx.toNat ≤ n := by
  rw [emitEngine_idx_toNat hz h]
  omega

theorem regen_engineOk (hz : Sized p cw n) (hwf : Mem.wf n e.mt) : EngineOk n (regen p e) := by
  obtain ⟨rfl, -, -⟩ := hz
  exact ⟨regen_wf p hwf, by simp, fun _ => regen_full p e⟩

theorem Seeded.engineOk (hs : Seeded p e e') (hz : Sized p cw n) (hwf : Mem.wf n e.mt) : EngineOk n e' := by
  obtain ⟨rfl, -, -⟩ := hz
  exact ⟨hs.wf hwf, by rw [hs.idx]; omega, fun _ => hs.full⟩

theorem Refill.engineOk (hr : Refill p e e₁) (hz : Sized p cw n) (hok : EngineOk n e) : EngineOk n e₁ := by
  cases hr with
  | ready => exact hok
  | exhausted => exact regen_engineOk hz hok.1
  | uninit _ hs => exact regen_engineOk hz (hs.engineOk hz hok.1).1

theorem emitEngine_engineOk (hz : Sized p cw n) (h : e.idx.toNat < n) (hok : EngineOk n e) :
    EngineOk n (emitEngine p e) := by
  obtain ⟨hwf, -, hfull⟩ := hok
  exact ⟨hwf, Nat.le_succ_of_le (emitEngine_idx_mem hz h).2, fun _ => hfull h.le⟩

/-- The array and the cursor of an engine stay legal (spec/10_state.md R23, R36). -/
theorem EngineEffect.engineOk (he : EngineEffect p a e e') (hz : Sized p cw n) (hok : EngineOk n e) :
    EngineOk n e' := by
  cases he with
  | keep h => exact h ▸ hok
  | seed hs => exact hs.engineOk hz hok.1
  | regen => exact regen_engineOk hz hok.1
  | emit h => exact emitEngine_engineOk hz (hz.size ▸ h) hok
  | draw hr => exact emitEngine_engineOk hz (hr.idx_lt hz) (hr.engineOk hz hok)

/-- An initialized engine stays initialized (spec/10_state.md R34). -/
theorem EngineEffect.idx_le (he : EngineEffect p a e e') (hz : Sized p cw n) (hidx : e.idx.toNat ≤ n) :
    e'.idx.toNat ≤ n := by
  cases he with
  | keep h => exact h ▸ hidx
  | seed hs => exact (hs.idx.trans hz.size).le
  | regen => exact (regen_idx_lt hz _).le
  | emit h => exact (emitEngine_idx_mem hz (hz.size ▸ h)).2
  | draw hr => exact (emitEngine_idx_mem hz (hr.idx_lt hz)).2

/-- Only seeding, regeneration and a draw that refills write the array (spec/10_state.md R22). -/
theorem EngineEffect.action_of_mt_ne (he : EngineEffect p a e e') (hz : Sized p cw n) (hne : e'.mt ≠ e.mt) :
    a = .seed ∨ a = .regen ∨ (a = .draw ∧ n ≤ e.idx.toNat) := by
  cases he with
  | keep h => exact absurd (h ▸ rfl) hne
  | seed => exact .inl rfl
  | regen => exact .inr (.inl rfl)
  | emit => exact absurd rfl hne
  | draw hr =>
    have hsize := hz.size
    refine .inr (.inr ⟨rfl, ?_⟩)
    cases hr with
    | ready => exact absurd rfl hne
    | exhausted h => omega
    | uninit h => omega

/-- A draw, or no action, leaves an initialized engine's array as it was or regenerated (spec/10_state.md R34). -/
theorem EngineEffect.mt_kept_or_regenerated (he : EngineEffect p a e e') (ha : a = .keep ∨ a = .draw)
    (hz : Sized p cw n) (hidx : e.idx.toNat ≤ n) : e'.mt = e.mt ∨ e'.mt = (Machine.regen p e).mt := by
  cases he with
  | keep h => exact .inl (h ▸ rfl)
  | draw hr =>
    have hsize := hz.size
    cases hr with
    | ready => exact .inl rfl
    | exhausted => exact .inr rfl
    | uninit h => omega
  | seed | regen | emit => simp at ha

/-- A draw, or no action, leaves an engine at rest at rest (spec/10_state.md R36). -/
theorem EngineEffect.resting (he : EngineEffect p a e e') (ha : a = .keep ∨ a = .draw) (hz : Sized p cw n)
    (hrest : Resting n e) : Resting n e' := by
  cases he with
  | keep h => exact h ▸ hrest
  | draw hr => exact .inr (emitEngine_idx_mem hz (hr.idx_lt hz))
  | seed | regen | emit => simp at ha

end

/-! ### The action of a phase -/

/-- What the micro-operation of a phase does with the selected engine (spec/30_encoding.md R78). -/
def phaseAction : Phase → EngineAction
  | .idle => .keep
  | .seed => .seed
  | .regen => .regen
  | .emit => .emit

@[simp] theorem action32_uopInstr_e32 (ph : Phase) : action32 (uopInstr .e32 ph) = phaseAction ph := by cases ph <;> rfl
@[simp] theorem action64_uopInstr_e32 (ph : Phase) : action64 (uopInstr .e32 ph) = .keep := by cases ph <;> rfl
@[simp] theorem action32_uopInstr_e64 (ph : Phase) : action32 (uopInstr .e64 ph) = .keep := by cases ph <;> rfl
@[simp] theorem action64_uopInstr_e64 (ph : Phase) : action64 (uopInstr .e64 ph) = phaseAction ph := by cases ph <;> rfl

/-- The cursor that a phase leaves is the one the next phase needs (spec/40_draw.md R93). -/
theorem EngineEffect.cursorOfPhase {p : EngineParams w} {n : Nat} {e e' : Engine w cw} {ph : Phase}
    (he : EngineEffect p (phaseAction ph) e e') (hz : Sized p cw n) (hc : CursorOfPhase n ph e) :
    CursorOfPhase n (nextPhase Config.params ph) e' := by
  cases ph with
  | idle => exact he.resting (.inl rfl) hz hc
  | seed =>
    cases he with
    | seed hs => exact hs.idx.trans hz.size
  | regen =>
    cases he with
    | regen => exact regen_idx_lt hz e
  | emit =>
    cases he with
    | emit h => exact .inr (emitEngine_idx_mem hz (hz.size ▸ h))

/-! ### Which effect each instruction has -/

theorem seed32_seeded {p : Params} (s : State) (hn : 0 < p.e32.n)
    (hidx : (postSeedIdx p p.e32.n 10).toNat = p.e32.n) : Seeded p.e32 s.e32 (seed32 p s).e32 where
  wf h := seedFill32_wf p.e32 _ hn h
  full := seedFill32_full p.e32 _ _
  idx := hidx

theorem seed64_seeded {p : Params} (s : State) (hidx : (postSeedIdx p p.e64.n 9).toNat = p.e64.n) :
    Seeded p.e64 s.e64 (seed64 p s).e64 where
  wf h := seedFill64_wf p.e64 _ h
  full := seedFill64_full p.e64 _ _
  idx := hidx

/-- A draw from a legal cursor is a refill, then an emission. -/
theorem draw32_refills {p : Params} {s : State} (hn : 0 < p.e32.n)
    (hidx : (postSeedIdx p p.e32.n 10).toNat = p.e32.n) (h : s.e32.idx.toNat ≤ p.e32.n + 1) :
    ∃ u, Refill p.e32 s.e32 u.e32 ∧ u.e64 = s.e64 ∧ draw32 p s = toIdle (emit32 p u) := by
  rcases Nat.lt_trichotomy s.e32.idx.toNat p.e32.n with hlt | heq | hgt
  · exact ⟨latch32 p s, .ready hlt, rfl, draw32_ready hlt⟩
  · exact ⟨regen32 p (latch32 p s), .exhausted heq, rfl, draw32_exhausted heq⟩
  · have heq : s.e32.idx.toNat = p.e32.n + 1 := by omega
    exact ⟨regen32 p (seed32 p (latch32 p s)), .uninit heq (seed32_seeded (latch32 p s) hn hidx), rfl,
      draw32_uninit heq hidx⟩

theorem draw64_refills {p : Params} {s : State} (hidx : (postSeedIdx p p.e64.n 9).toNat = p.e64.n)
    (h : s.e64.idx.toNat ≤ p.e64.n + 1) :
    ∃ u, Refill p.e64 s.e64 u.e64 ∧ u.e32 = s.e32 ∧ draw64 p s = toIdle (emit64 p u) := by
  rcases Nat.lt_trichotomy s.e64.idx.toNat p.e64.n with hlt | heq | hgt
  · exact ⟨latch64 p s, .ready hlt, rfl, draw64_ready hlt⟩
  · exact ⟨regen64 p (latch64 p s), .exhausted heq, rfl, draw64_exhausted heq⟩
  · have heq : s.e64.idx.toNat = p.e64.n + 1 := by omega
    exact ⟨regen64 p (seed64 p (latch64 p s)), .uninit heq (seed64_seeded (latch64 p s) hidx), rfl,
      draw64_uninit heq hidx⟩

/-- A draw from a legal cursor completes at rest, with its effect on its own engine and none on the other. -/
theorem draw32_next {s : State} (h : s.e32.idx.toNat ≤ 625) :
    ∃ t, exec .draw32 s = .next t ∧ EngineEffect Config.params.e32 .draw s.e32 t.e32 ∧ t.e64 = s.e64 ∧ t.phase = .idle := by
  obtain ⟨u, hr, hother, hdraw⟩ := draw32_refills sized_e32.pos postSeedIdx_params32 h
  rw [emit32_next Config.params (hr.idx_lt sized_e32)] at hdraw
  exact ⟨_, hdraw, .draw hr, hother, rfl⟩

theorem draw64_next {s : State} (h : s.e64.idx.toNat ≤ 313) :
    ∃ t, exec .draw64 s = .next t ∧ EngineEffect Config.params.e64 .draw s.e64 t.e64 ∧ t.e32 = s.e32 ∧ t.phase = .idle := by
  obtain ⟨u, hr, hother, hdraw⟩ := draw64_refills postSeedIdx_params64 h
  rw [emit64_next Config.params (hr.idx_lt sized_e64)] at hdraw
  exact ⟨_, hdraw, .draw hr, hother, rfl⟩

/-- A draw from a cursor above `N + 1` stops (log 9). -/
theorem draw32_stops {p : Params} {s : State} (h : p.e32.n + 1 < s.e32.idx.toNat) :
    draw32 p s = .fault .emitPreconditionViolated := by
  have hu : uninit p.e32 s.e32 = false := by rw [Bool.eq_false_iff, ne_eq, uninit_iff]; omega
  have hx : exhausted p.e32 s.e32 = false := by rw [Bool.eq_false_iff, ne_eq, exhausted_iff]; omega
  have hstop : emit32 p (latch32 p s) = .fault .emitPreconditionViolated := emit32_stops p (by simp; omega)
  simp [draw32, hu, hx, hstop]

theorem draw64_stops {p : Params} {s : State} (h : p.e64.n + 1 < s.e64.idx.toNat) :
    draw64 p s = .fault .emitPreconditionViolated := by
  have hu : uninit p.e64 s.e64 = false := by rw [Bool.eq_false_iff, ne_eq, uninit_iff]; omega
  have hx : exhausted p.e64 s.e64 = false := by rw [Bool.eq_false_iff, ne_eq, exhausted_iff]; omega
  have hstop : emit64 p (latch64 p s) = .fault .emitPreconditionViolated := emit64_stops p (by simp; omega)
  simp [draw64, hu, hx, hstop]

/-- If a draw answers a next state, that state is at rest, with the effect of `draw32_next`. -/
theorem draw32_cases {s t : State} (h : exec .draw32 s = .next t) :
    EngineEffect Config.params.e32 .draw s.e32 t.e32 ∧ t.e64 = s.e64 ∧ t.phase = .idle := by
  by_cases hidx : s.e32.idx.toNat ≤ 625
  · obtain ⟨t', hnext, heffect⟩ := draw32_next hidx
    obtain rfl : t' = t := by rw [hnext] at h; injection h
    exact heffect
  · have hstop : exec .draw32 s = .fault .emitPreconditionViolated :=
      draw32_stops (p := Config.params) (Nat.not_le.1 hidx)
    rw [hstop] at h
    cases h

theorem draw64_cases {s t : State} (h : exec .draw64 s = .next t) :
    EngineEffect Config.params.e64 .draw s.e64 t.e64 ∧ t.e32 = s.e32 ∧ t.phase = .idle := by
  by_cases hidx : s.e64.idx.toNat ≤ 313
  · obtain ⟨t', hnext, heffect⟩ := draw64_next hidx
    obtain rfl : t' = t := by rw [hnext] at h; injection h
    exact heffect
  · have hstop : exec .draw64 s = .fault .emitPreconditionViolated :=
      draw64_stops (p := Config.params) (Nat.not_le.1 hidx)
    rw [hstop] at h
    cases h

/-- What an instruction can do to the two engines: on each, the effect of its action there. -/
theorem exec_effect {i : Instr} {s t : State} (h : exec i s = .next t) :
    EngineEffect Config.params.e32 (action32 i) s.e32 t.e32 ∧
      EngineEffect Config.params.e64 (action64 i) s.e64 t.e64 := by
  cases i with
  | draw32 =>
    obtain ⟨heffect, hother, -⟩ := draw32_cases h
    exact ⟨heffect, .keep hother⟩
  | draw64 =>
    obtain ⟨heffect, hother, -⟩ := draw64_cases h
    exact ⟨.keep hother, heffect⟩
  | reserved w => cases h; exact ⟨.keep rfl, .keep rfl⟩
  | seed32 =>
    obtain rfl : seed32 Config.params s = t := by injection h
    exact ⟨.seed (seed32_seeded s sized_e32.pos postSeedIdx_params32), .keep (seed32_e64 _ s)⟩
  | regen32 =>
    obtain rfl : regen32 Config.params s = t := by injection h
    exact ⟨.regen, .keep (regen32_e64 _ s)⟩
  | emit32 =>
    obtain ⟨hready, rfl⟩ := emit32_cases h
    exact ⟨.emit hready, .keep rfl⟩
  | seed64 =>
    obtain rfl : seed64 Config.params s = t := by injection h
    exact ⟨.keep (seed64_e32 _ s), .seed (seed64_seeded s postSeedIdx_params64)⟩
  | regen64 =>
    obtain rfl : regen64 Config.params s = t := by injection h
    exact ⟨.keep (regen64_e32 _ s), .regen⟩
  | emit64 =>
    obtain ⟨hready, rfl⟩ := emit64_cases h
    exact ⟨.keep rfl, .emit hready⟩
  | idle sel => cases h; exact ⟨.keep rfl, .keep rfl⟩

/-- Both engines stay legal under every instruction. -/
theorem exec_engineOk {i : Instr} {s t : State} (h : exec i s = .next t) (h32 : EngineOk 624 s.e32)
    (h64 : EngineOk 312 s.e64) : EngineOk 624 t.e32 ∧ EngineOk 312 t.e64 := by
  obtain ⟨he32, he64⟩ := exec_effect h
  exact ⟨he32.engineOk sized_e32 h32, he64.engineOk sized_e64 h64⟩

end Sys2Proof.Machine
end

section
/-! Commands at rest and single steps: which instruction runs, and that each keeps the legal states (spec/10_state.md R34,
R36). -/

namespace Sys2Proof.Machine

/-! ### Commands -/

/-- The three instructions that a command byte decodes to (spec/30_encoding.md R74, R75). -/
theorem decodeCommand_cases (b : Byte) :
    decodeCommand b = .draw32 ∨ decodeCommand b = .draw64 ∨ decodeCommand b = .reserved b := by
  unfold decodeCommand
  split_ifs <;> simp

/-- A command draws from an engine or keeps it. -/
theorem action32_decodeCommand (b : Byte) : action32 (decodeCommand b) = .keep ∨ action32 (decodeCommand b) = .draw := by
  rcases decodeCommand_cases b with h | h | h <;> simp [h, action32]

theorem action64_decodeCommand (b : Byte) : action64 (decodeCommand b) = .keep ∨ action64 (decodeCommand b) = .draw := by
  rcases decodeCommand_cases b with h | h | h <;> simp [h, action64]

/-- A command completes where both cursors are legal. -/
theorem exec_decodeCommand_next {s : State} (b : Byte) (h32 : s.e32.idx.toNat ≤ 625) (h64 : s.e64.idx.toNat ≤ 313) :
    ∃ t, exec (decodeCommand b) s = .next t := by
  rcases decodeCommand_cases b with h | h | h <;> rw [h]
  · exact (draw32_next h32).imp fun _ ht => ht.1
  · exact (draw64_next h64).imp fun _ ht => ht.1
  · exact ⟨takeFault b s, rfl⟩

/-- A command of a machine in IDLE leaves it in IDLE. -/
theorem exec_decodeCommand_phase {s t : State} {b : Byte} (hidle : s.phase = .idle)
    (hexec : exec (decodeCommand b) s = .next t) : t.phase = .idle := by
  rcases decodeCommand_cases b with h | h | h <;> rw [h] at hexec
  · exact (draw32_cases hexec).2.2
  · exact (draw64_cases hexec).2.2
  · cases hexec; exact hidle

/-- In IDLE a legal state is one with both engines legal and at rest, whatever `sel` is. -/
theorem inv_iff_of_idle {s : State} (hidle : s.phase = .idle) :
    Inv s ↔ EngineOk 624 s.e32 ∧ EngineOk 312 s.e64 ∧ Resting 624 s.e32 ∧ Resting 312 s.e64 := by
  unfold Inv
  rw [hidle]
  cases s.sel <;> rfl

theorem exec_decodeCommand_inv {s t : State} {b : Byte} (hidle : s.phase = .idle) (hinv : Inv s)
    (hexec : exec (decodeCommand b) s = .next t) : Inv t := by
  obtain ⟨hok32, hok64, hrest32, hrest64⟩ := (inv_iff_of_idle hidle).1 hinv
  obtain ⟨hok32', hok64'⟩ := exec_engineOk hexec hok32 hok64
  obtain ⟨he32, he64⟩ := exec_effect hexec
  exact (inv_iff_of_idle (exec_decodeCommand_phase hidle hexec)).2 ⟨hok32', hok64',
    he32.resting (action32_decodeCommand b) sized_e32 hrest32,
    he64.resting (action64_decodeCommand b) sized_e64 hrest64⟩

/-! ### Micro-operations -/

/-- No micro-operation writes `sel`. -/
theorem exec_uopInstr_sel {s t : State} {sel : EngineSel} {ph : Phase} (h : exec (uopInstr sel ph) s = .next t) :
    t.sel = s.sel := by
  cases ph with
  | idle => cases h; rfl
  | seed => cases sel <;> (injection h with h; rw [← h]; simp)
  | regen => cases sel <;> (injection h with h; rw [← h]; simp)
  | emit =>
    cases sel with
    | e32 => obtain ⟨-, rfl⟩ := emit32_cases h; rfl
    | e64 => obtain ⟨-, rfl⟩ := emit64_cases h; rfl

theorem exec_uopInstr_inv {s u : State} (hinv : Inv s) (hexec : exec (uopInstr s.sel s.phase) s = .next u) :
    Inv { u with phase := nextPhase Config.params s.phase } := by
  obtain ⟨hok32, hok64, hcursors⟩ := hinv
  obtain ⟨hok32', hok64'⟩ := exec_engineOk hexec hok32 hok64
  obtain ⟨he32, he64⟩ := exec_effect hexec
  refine ⟨hok32', hok64', ?_⟩
  simp only [exec_uopInstr_sel hexec]
  cases hsel : s.sel with
  | e32 =>
    rw [hsel] at hcursors he32 he64
    rw [action32_uopInstr_e32] at he32
    exact ⟨he32.cursorOfPhase sized_e32 hcursors.1,
      he64.resting (.inl (action64_uopInstr_e32 _)) sized_e64 hcursors.2⟩
  | e64 =>
    rw [hsel] at hcursors he32 he64
    rw [action64_uopInstr_e64] at he64
    exact ⟨he32.resting (.inl (action32_uopInstr_e64 _)) sized_e32 hcursors.1,
      he64.cursorOfPhase sized_e64 hcursors.2⟩

/-! ### The step -/

/-- A step that runs the micro-operation of `sel` and `phase` moves the phase on. -/
theorem step_microOp_cases {s t : State} (hfetch : fetch s = .microOp (uopInstr s.sel s.phase) s)
    (h : step s = .next t) :
    ∃ u, exec (uopInstr s.sel s.phase) s = .next u ∧ t = { u with phase := nextPhase Config.params s.phase } := by
  rw [step, hfetch] at h
  cases hexec : exec (uopInstr s.sel s.phase) s with
  | next u =>
    simp only [hexec, advancePhase_next, exec_uopInstr_phase hexec] at h
    exact ⟨u, rfl, by injection h with h; exact h.symm⟩
  | fault f => simp [hexec, advancePhase] at h
  | refused r => simp [hexec, advancePhase] at h

/-- If a step answers a next state, it was a reset, a command of a machine in IDLE, or a micro-operation. -/
theorem step_cases {s t : State} (h : step s = .next t) :
    (∃ rest, s.host = .reset :: rest ∧ t = resetEvent { s with host := rest }) ∨
    (∃ width handle rest, s.phase = .idle ∧ s.host = .command width handle :: rest ∧
      exec (decodeCommand width) (acceptCommand width handle rest s) = .next t) ∨
    ∃ u, exec (uopInstr s.sel s.phase) s = .next u ∧ t = { u with phase := nextPhase Config.params s.phase } := by
  cases hhost : s.host with
  | nil => exact .inr (.inr (step_microOp_cases (fetch_no_event s hhost) h))
  | cons event rest =>
    cases event with
    | reset =>
      rw [step_reset_head s rest hhost] at h
      exact .inl ⟨rest, rfl, by injection h with h; exact h.symm⟩
    | command width handle =>
      by_cases hidle : s.phase = .idle
      · rw [step, fetch_command s width handle rest hidle hhost] at h
        exact .inr (.inl ⟨width, handle, rest, hidle, rfl, h⟩)
      · exact .inr (.inr (step_microOp_cases (fetch_busy s width handle rest hidle hhost) h))

/-! ### The obligations of spec/10_state.md -/

/-- An engine with an empty array and the cursor at `N + 1` is legal and at rest (spec/10_state.md R33, R36). -/
theorem uninitialized_engineOk {w cw n : Nat} {e : Engine w cw} (hmt : e.mt = []) (hidx : e.idx.toNat = n + 1) :
    EngineOk n e ∧ Resting n e :=
  ⟨⟨hmt ▸ mem_wf_nil n, hidx.le, fun hle => by omega⟩, .inl hidx⟩

/-- Settles O45: both engines are uninitialized after reset. -/
theorem resetIsLegal : Obligations.ResetIsLegal := by
  obtain ⟨hok32, hrest32⟩ := uninitialized_engineOk (n := 624) (e := State.reset.e32) rfl rfl
  obtain ⟨hok64, hrest64⟩ := uninitialized_engineOk (n := 312) (e := State.reset.e64) rfl rfl
  exact ⟨rfl, (inv_iff_of_idle rfl).2 ⟨hok32, hok64, hrest32, hrest64⟩⟩

/-- Settles O46, by the three things a step can be: a reset, a command of a resting machine, a micro-operation. -/
theorem stepKeepsLegalStates : Obligations.StepKeepsLegalStates := by
  intro s t hinv hstep
  rcases step_cases hstep with ⟨rest, -, rfl⟩ | ⟨width, handle, rest, hidle, -, hexec⟩ | ⟨u, hexec, rfl⟩
  · exact resetIsLegal.2
  · exact exec_decodeCommand_inv (s := acceptCommand width handle rest s) hidle hinv hexec
  · exact exec_uopInstr_inv hinv hexec

/-- Settles O49: the effect of the instruction on each engine says which actions write the array. -/
theorem arrayWrittenOnlyBySeedAndRegen : Obligations.ArrayWrittenOnlyBySeedAndRegen := by
  intro i s t hexec
  obtain ⟨he32, he64⟩ := exec_effect hexec
  refine ⟨fun hne => ?_, fun hne => ?_⟩
  · have haction := he32.action_of_mt_ne sized_e32 hne
    rwa [action32_eq_seed, action32_eq_regen, action32_eq_draw] at haction
  · have haction := he64.action_of_mt_ne sized_e64 hne
    rwa [action64_eq_seed, action64_eq_regen, action64_eq_draw] at haction

/-- Settles O50: no effect takes the cursor above `N`, and a command keeps an engine or draws from it. -/
theorem noCommandReseeds : Obligations.NoCommandReseeds := by
  refine ⟨fun i s t hexec => ?_, fun s c hrest => ?_⟩
  · obtain ⟨he32, he64⟩ := exec_effect hexec
    exact ⟨he32.idx_le sized_e32, he64.idx_le sized_e64⟩
  · obtain ⟨hidle, ⟨-, hidx32, -⟩, ⟨-, hidx64, -⟩, -⟩ := hrest
    obtain ⟨t, hexec⟩ := exec_decodeCommand_next (s := acceptCommand c.1 c.2 s.host s) c.1 hidx32 hidx64
    obtain ⟨he32, he64⟩ := exec_effect hexec
    refine ⟨t, ?_, ?_, ?_⟩
    · rw [present, hostMove_command_idle s c.1 c.2 hidle, hexec]
    · exact he32.mt_kept_or_regenerated (action32_decodeCommand c.1) sized_e32
    · exact he64.mt_kept_or_regenerated (action64_decodeCommand c.1) sized_e64

/-- Settles O9: each value is the one `State.reset` writes. -/
theorem resetStateValues : Obligations.ResetStateValues :=
  ⟨rfl, rfl, rfl, rfl, rfl, memLookup_nil, memLookup_nil⟩

/-- Settles O51: each flag is its test, and the cursor is `N + 1`, `N` or below `N`. -/
theorem exactlyOneFlag : Obligations.ExactlyOneFlag := by
  intro w cw p e hidx
  refine ⟨uninit_iff p e, exhausted_iff p e, ready_iff p e, ?_⟩
  simp only [← Bool.not_eq_true, uninit_iff, exhausted_iff, ready_iff]
  omega

end Sys2Proof.Machine
end

section
/-! What an instruction leaves alone outside the engines (spec/20_memory.md R50, R64): the port registers and the host's
events always, `lcg` unless it seeds E64. -/

namespace Sys2Proof.Machine

/-- The port registers and the host's events are the same in both states (log 4, log 5). -/
structure SamePorts (s t : State) : Prop where
  cmdWidth : t.cmdWidth = s.cmdWidth
  cmdHandle : t.cmdHandle = s.cmdHandle
  host : t.host = s.host

theorem toIdle_cases {o : Host.Outcome State Fault Refusal} {t : State} (h : toIdle o = .next t) :
    ∃ u, o = .next u ∧ t = { u with phase := .idle } := by
  cases o with
  | next u => cases h; exact ⟨u, rfl, rfl⟩
  | fault f => cases h
  | refused r => cases h

/-- Whichever of SEED and REGEN run, a draw of E32 keeps the port registers and `lcg`. -/
theorem draw32_samePorts_lcg {p : Params} {s t : State} (h : draw32 p s = .next t) :
    SamePorts s t ∧ t.lcg = s.lcg := by
  obtain ⟨u, hemit, rfl⟩ := toIdle_cases h
  obtain ⟨-, rfl⟩ := emit32_cases hemit
  split_ifs <;> exact ⟨⟨rfl, rfl, rfl⟩, rfl⟩

theorem draw64_samePorts {p : Params} {s t : State} (h : draw64 p s = .next t) : SamePorts s t := by
  obtain ⟨u, hemit, rfl⟩ := toIdle_cases h
  obtain ⟨-, rfl⟩ := emit64_cases hemit
  split_ifs <;> exact ⟨rfl, rfl, rfl⟩

/-- No instruction touches the port registers or the host's events. -/
theorem exec_samePorts {i : Instr} {s t : State} (h : exec i s = .next t) : SamePorts s t := by
  cases i with
  | draw32 => exact (draw32_samePorts_lcg h).1
  | draw64 => exact draw64_samePorts h
  | emit32 => obtain ⟨-, rfl⟩ := emit32_cases h; exact ⟨rfl, rfl, rfl⟩
  | emit64 => obtain ⟨-, rfl⟩ := emit64_cases h; exact ⟨rfl, rfl, rfl⟩
  | reserved | idle => cases h; exact ⟨rfl, rfl, rfl⟩
  | seed32 | regen32 | seed64 | regen64 => injection h with h; subst h; constructor <;> simp

/-- An instruction that writes `lcg` seeds E64, alone or inside a draw (spec/10_state.md R30). -/
theorem exec_lcg_cases {i : Instr} {s t : State} (h : exec i s = .next t) :
    t.lcg = s.lcg ∨ action64 i = .seed ∨ action64 i = .draw := by
  cases i with
  | draw32 => exact .inl (draw32_samePorts_lcg h).2
  | draw64 => exact .inr (.inr rfl)
  | seed64 => exact .inr (.inl rfl)
  | emit32 => obtain ⟨-, rfl⟩ := emit32_cases h; exact .inl rfl
  | emit64 => obtain ⟨-, rfl⟩ := emit64_cases h; exact .inl rfl
  | reserved | idle => cases h; exact .inl rfl
  | seed32 | regen32 | regen64 => injection h with h; subst h; simp

/-- An instruction with no action on E32 leaves it as it is. -/
theorem exec_keeps_e32 {i : Instr} {s t : State} (h : exec i s = .next t) (hkeep : action32 i = .keep) :
    t.e32 = s.e32 := by
  obtain ⟨heffect, -⟩ := exec_effect h
  rw [hkeep] at heffect
  cases heffect with
  | keep heq => exact heq

/-- An instruction with no action on E64 leaves it and its running value `lcg` as they are. -/
theorem exec_keeps_e64_lcg {i : Instr} {s t : State} (h : exec i s = .next t) (hkeep : action64 i = .keep) :
    t.e64 = s.e64 ∧ t.lcg = s.lcg := by
  obtain ⟨-, heffect⟩ := exec_effect h
  have hlcg := exec_lcg_cases h
  rw [hkeep] at heffect hlcg
  cases heffect with
  | keep heq => exact ⟨heq, by simpa using hlcg⟩

/-- The instructions of E32 have no action on E64. -/
theorem action64_of_e32_instr : ∀ i ∈ [Instr.draw32, .seed32, .regen32, .emit32], action64 i = .keep :=
  List.forall_iff_forall_mem.1 (by exact ⟨rfl, rfl, rfl, rfl⟩)

/-- The instructions of E64 have no action on E32. -/
theorem action32_of_e64_instr : ∀ i ∈ [Instr.draw64, .seed64, .regen64, .emit64], action32 i = .keep :=
  List.forall_iff_forall_mem.1 (by exact ⟨rfl, rfl, rfl, rfl⟩)

/-- Settles O48: the instructions named act on the other engine by keeping it, RESERVED and IDLE on both. -/
theorem instructionsTouchOneEngine : Obligations.InstructionsTouchOneEngine := by
  intro i s t hexec
  obtain ⟨hwidth, hhandle, hhost⟩ := exec_samePorts hexec
  refine ⟨fun hmem => exec_keeps_e64_lcg hexec ?_, fun hmem => exec_keeps_e32 hexec ?_, fun hnone => ?_,
    hwidth, hhandle, hhost⟩
  · exact action64_of_e32_instr i hmem
  · exact action32_of_e64_instr i hmem
  · have hkeep : action32 i = .keep ∧ action64 i = .keep := by
      rcases hnone with ⟨w, rfl⟩ | ⟨sel, rfl⟩ <;> exact ⟨rfl, rfl⟩
    exact ⟨exec_keeps_e32 hexec hkeep.1, exec_keeps_e64_lcg hexec hkeep.2⟩

end Sys2Proof.Machine
end

section
/-! The two code spaces (spec/30_encoding.md R74, R77, R78): what a command byte and a micro-operation code decode to, and
that encoding is the inverse of decoding on each. -/

namespace Sys2Proof.Machine

/-! ### Command bytes -/

theorem reservedWidth_iff (b : Byte) : reservedWidth b = true ↔ b ≠ 0x20#8 ∧ b ≠ 0x40#8 := by simp [reservedWidth]

theorem decodeCommand_of_ne {b : Byte} (hne32 : b ≠ 0x20#8) (hne64 : b ≠ 0x40#8) : decodeCommand b = .reserved b := by
  rw [decodeCommand, if_neg hne32, if_neg hne64]

/-- The three rows of the opcode map, each with its byte (spec/30_encoding.md R74). -/
theorem decodeCommand_width_cases (b : Byte) :
    (b = 0x20#8 ∧ decodeCommand b = .draw32) ∨ (b = 0x40#8 ∧ decodeCommand b = .draw64) ∨
      ((b ≠ 0x20#8 ∧ b ≠ 0x40#8) ∧ decodeCommand b = .reserved b) := by
  by_cases h32 : b = 0x20#8
  · exact .inl ⟨h32, h32 ▸ rfl⟩
  by_cases h64 : b = 0x40#8
  · exact .inr (.inl ⟨h64, h64 ▸ rfl⟩)
  · exact .inr (.inr ⟨⟨h32, h64⟩, decodeCommand_of_ne h32 h64⟩)

/-- Every byte is the code of the well-formed command it decodes to (spec/30_encoding.md R77). -/
theorem encode_decodeCommand (b : Byte) :
    encode (decodeCommand b) = .command b ∧ (decodeCommand b).wellFormed = true := by
  rcases decodeCommand_width_cases b with ⟨rfl, -⟩ | ⟨rfl, -⟩ | ⟨hreserved, hdecode⟩
  · exact ⟨rfl, rfl⟩
  · exact ⟨rfl, rfl⟩
  · rw [hdecode]
    exact ⟨rfl, (reservedWidth_iff b).2 hreserved⟩

/-! ### Micro-operation codes -/

theorem encode_uopInstr (sel : EngineSel) (ph : Phase) : encode (uopInstr sel ph) = .uop (encodeUop sel ph) := by
  cases ph <;> cases sel <;> rfl

theorem uopInstr_wellFormed (sel : EngineSel) (ph : Phase) : (uopInstr sel ph).wellFormed = true := by
  cases ph <;> cases sel <;> rfl

/-- A code with a phase is put together again from its two fields (spec/30_encoding.md R78). -/
theorem encodeUop_of_decodePhase : ∀ (c : BitVec 4), ∀ ph ∈ decodePhase c, encodeUop (decodeSel c) ph = c := by decide

/-- The phase field has the unused values exactly where bit 2 is set (spec/30_encoding.md R78). -/
theorem decodePhase_eq_none_iff : ∀ c : BitVec 4, decodePhase c = none ↔ c.getLsbD 2 = true := by decide

theorem decodeUop_unused {c : BitVec 4} (hbit : c.getLsbD 2 = true) : decodeUop c = .error (.unusedUop c) := by
  rw [decodeUop, (decodePhase_eq_none_iff c).2 hbit]

/-- A code that decodes is the code of the micro-operation it decodes to. -/
theorem encode_of_decodeUop {c : BitVec 4} {i : Instr} (h : decodeUop c = .ok i) :
    encode i = .uop c ∧ i.wellFormed = true := by
  rw [decodeUop] at h
  cases hphase : decodePhase c with
  | none => rw [hphase] at h; cases h
  | some ph =>
    rw [hphase] at h
    cases h
    rw [encode_uopInstr, encodeUop_of_decodePhase c ph hphase]
    exact ⟨rfl, uopInstr_wellFormed _ ph⟩

/-! ### The obligations -/

/-- Settles O3: one way by the table's rows, the other by the two code spaces. -/
theorem decodeAndEncodeAgree : Obligations.DecodeAndEncodeAgree := by
  refine ⟨fun i hwf => ?_, fun c i hdecode => ?_⟩
  · cases i with
    | reserved b =>
      obtain ⟨hne32, hne64⟩ := (reservedWidth_iff b).1 hwf
      rw [encode, decode, decodeCommand_of_ne hne32 hne64]
    | idle sel => exact decode_encodeUop sel .idle
    | draw32 | draw64 | seed32 | regen32 | emit32 | seed64 | regen64 | emit64 => rfl
  · cases c with
    | command b => cases hdecode; exact encode_decodeCommand b
    | uop c => exact encode_of_decodeUop hdecode

/-- Settles O1: two bytes by evaluation, every other by the two tests it fails. -/
theorem commandByteMap : Obligations.CommandByteMap :=
  ⟨rfl, rfl, fun _ hne32 hne64 => congrArg Except.ok (decodeCommand_of_ne hne32 hne64)⟩

/-- Settles O2: the rows by evaluation, the unused codes by their bit 2. -/
theorem microOperationCodes : Obligations.MicroOperationCodes :=
  ⟨rfl, rfl, rfl, rfl, rfl, rfl, rfl, rfl, fun _ => decodeUop_unused, by decide⟩

/-- Settles O4, by evaluating the decoder on the listed rows. -/
theorem tableWordsDecode : Obligations.TableWordsDecode := ⟨rfl, rfl, rfl, rfl, rfl, rfl, rfl, rfl⟩

end Sys2Proof.Machine
end

section
/-! The response to a command (spec/30_encoding.md R70, R73, R75): one per command, with a fault exactly for an unsupported
width. -/

namespace Sys2Proof.Machine

/-- `t` has delivered one response more than `s`: `r`, with the fault field `f`. -/
def Delivers (s t : State) (f : RspFault) (r : Response) : Prop := t.responses = r :: s.responses ∧ r.fault = f

/-- The fault field of the response to a command byte (spec/30_encoding.md R74, R75). -/
def commandFault (b : Byte) : RspFault := if b = 0x20#8 ∨ b = 0x40#8 then .noFault else .widthUnsupported b

/-- Whichever of SEED and REGEN run, a draw delivers the response of its EMIT. -/
theorem draw32_delivers {p : Params} {s t : State} (h : draw32 p s = .next t) : ∃ r, Delivers s t .noFault r := by
  obtain ⟨u, hemit, rfl⟩ := toIdle_cases h
  obtain ⟨-, rfl⟩ := emit32_cases hemit
  split_ifs <;> exact ⟨_, rfl, rfl⟩

theorem draw64_delivers {p : Params} {s t : State} (h : draw64 p s = .next t) : ∃ r, Delivers s t .noFault r := by
  obtain ⟨u, hemit, rfl⟩ := toIdle_cases h
  obtain ⟨-, rfl⟩ := emit64_cases hemit
  split_ifs <;> exact ⟨_, rfl, rfl⟩

theorem exec_decodeCommand_delivers {s t : State} {b : Byte} (h : exec (decodeCommand b) s = .next t) :
    ∃ r, Delivers s t (commandFault b) r := by
  rcases decodeCommand_width_cases b with ⟨rfl, -⟩ | ⟨rfl, -⟩ | ⟨hreserved, hdecode⟩
  · exact draw32_delivers h
  · exact draw64_delivers h
  · rw [hdecode] at h
    cases h
    rw [commandFault, if_neg (not_or.2 hreserved)]
    exact ⟨_, rfl, rfl⟩

/-- A resting machine completes the command presented, delivers its response and rests again (spec/40_draw.md R90). -/
theorem present_atRest {s : State} (c : Byte × Word64) (hrest : AtRest s) :
    ∃ t r, present s c = .next t ∧ AtRest t ∧ Delivers s t (commandFault c.1) r := by
  obtain ⟨hidle, hinv⟩ := hrest
  have ⟨⟨_, hidx32, _⟩, ⟨_, hidx64, _⟩, _⟩ := hinv
  let s₀ := acceptCommand c.1 c.2 s.host s
  obtain ⟨t, hexec⟩ := exec_decodeCommand_next (s := s₀) c.1 hidx32 hidx64
  obtain ⟨r, hresponses, hfault⟩ := exec_decodeCommand_delivers hexec
  have hidle' : t.phase = .idle := exec_decodeCommand_phase (s := s₀) hidle hexec
  have hinv' : Inv t := exec_decodeCommand_inv (s := s₀) hidle hinv hexec
  refine ⟨t, r, ?_, ⟨hidle', hinv'⟩, hresponses, hfault⟩
  rw [present, hostMove_command_idle s c.1 c.2 hidle, hexec]

/-! ### The host's variables -/

theorem storeHandle_draw_noFault (handles : List Word64) (w : Byte) (var : Nat) {r : Response} (hr : r.fault = .noFault) :
    storeHandle handles (.draw w var) (some r) = handles.set var r.handle := by
  obtain ⟨fault, handle, result⟩ := r
  cases hr
  rfl

theorem storeHandle_draw_fault (handles : List Word64) (w : Byte) (var : Nat) {r : Response} {b : Byte}
    (hr : r.fault = .widthUnsupported b) : storeHandle handles (.draw w var) (some r) = handles := by
  obtain ⟨fault, handle, result⟩ := r
  cases hr
  rfl

/-- Settles O53: the line presents its command, whose response carries a fault exactly for an unsupported width. -/
theorem hostStoresHandleUnlessFault : Obligations.HostStoresHandleUnlessFault := by
  intro hb w var hrest
  obtain ⟨t, r, hpresent, -, hresponses, hfault⟩ := present_atRest (w, hb.handles.getD var 0) hrest
  have hmove : hostMove (lineEvent hb.handles (.draw w var)) hb.block = .next t := hpresent
  have hnewest : t.responses.head? = some r := by rw [hresponses, List.head?_cons]
  refine ⟨_, r, by rw [runLine, hmove], hnewest, ?_⟩
  simp only [hnewest]
  rw [commandFault] at hfault
  split_ifs at hfault ⊢
  · exact storeHandle_draw_noFault _ w var hfault
  · exact storeHandle_draw_fault _ w var hfault

end Sys2Proof.Machine
end

section
/-! The host's queue (log 5): no instruction looks at it, so a queued command is answered as the command presented alone is,
and a resting machine works its queue off (spec/70_reset_and_hazards.md R207, R208). -/

namespace Sys2Proof.Machine

/-- The state with other events pending. -/
def withHost (events : List HostEvent) (s : State) : State := { s with host := events }

/-- The outcome with other events pending in the next state. -/
def outcomeWithHost (events : List HostEvent) :
    Host.Outcome State Fault Refusal → Host.Outcome State Fault Refusal
  | .next s => .next (withHost events s)
  | .fault f => .fault f
  | .refused r => .refused r

variable (p : Params) (events : List HostEvent) (s : State)

theorem toIdle_outcomeWithHost (o : Host.Outcome State Fault Refusal) :
    toIdle (outcomeWithHost events o) = outcomeWithHost events (toIdle o) := by
  cases o <;> rfl

theorem emit32_withHost : emit32 p (withHost events s) = outcomeWithHost events (emit32 p s) := by
  simp only [emit32, apply_ite (outcomeWithHost events)]
  rfl

theorem emit64_withHost : emit64 p (withHost events s) = outcomeWithHost events (emit64 p s) := by
  simp only [emit64, apply_ite (outcomeWithHost events)]
  rfl

@[simp] theorem withHost_e32 : (withHost events s).e32 = s.e32 := rfl
@[simp] theorem withHost_e64 : (withHost events s).e64 = s.e64 := rfl

theorem latch32_withHost : latch32 p (withHost events s) = withHost events (latch32 p s) := rfl
theorem seed32_withHost : seed32 p (withHost events s) = withHost events (seed32 p s) := rfl
theorem regen32_withHost : regen32 p (withHost events s) = withHost events (regen32 p s) := rfl
theorem latch64_withHost : latch64 p (withHost events s) = withHost events (latch64 p s) := rfl
theorem seed64_withHost : seed64 p (withHost events s) = withHost events (seed64 p s) := rfl
theorem regen64_withHost : regen64 p (withHost events s) = withHost events (regen64 p s) := rfl

theorem ite_withHost (c : Prop) [Decidable c] (t : State) :
    (if c then withHost events s else withHost events t) = withHost events (if c then s else t) :=
  (apply_ite (withHost events) c s t).symm

/-- Each part of a draw carries the pending events along, so the draw does, whichever parts run. -/
theorem draw32_withHost : draw32 p (withHost events s) = outcomeWithHost events (draw32 p s) := by
  simp only [draw32]
  rw [latch32_withHost, seed32_withHost, withHost_e32, ite_withHost, regen32_withHost, withHost_e32, ite_withHost,
    emit32_withHost, toIdle_outcomeWithHost]

theorem draw64_withHost : draw64 p (withHost events s) = outcomeWithHost events (draw64 p s) := by
  simp only [draw64]
  rw [latch64_withHost, seed64_withHost, withHost_e64, ite_withHost, regen64_withHost, withHost_e64, ite_withHost,
    emit64_withHost, toIdle_outcomeWithHost]

/-- No command looks at the pending events. -/
theorem exec_decodeCommand_withHost (b : Byte) :
    exec (decodeCommand b) (withHost events s) = outcomeWithHost events (exec (decodeCommand b) s) := by
  rcases decodeCommand_cases b with h | h | h <;> rw [h]
  · exact draw32_withHost Config.params events s
  · exact draw64_withHost Config.params events s
  · rfl

/-- A queued command of a resting machine is answered as the command presented, and leaves the rest of the queue. -/
theorem step_queued_command (c : Byte × Word64) (hidle : s.phase = .idle) :
    step (withHost (.command c.1 c.2 :: events) s) = outcomeWithHost events (present s c) := by
  have hfetch : fetch (withHost (.command c.1 c.2 :: events) s)
      = .command (decodeCommand c.1) (withHost events (acceptCommand c.1 c.2 s.host s)) :=
    fetch_command (withHost (.command c.1 c.2 :: events) s) c.1 c.2 events hidle rfl
  rw [step, hfetch, present, hostMove_command_idle s c.1 c.2 hidle]
  exact exec_decodeCommand_withHost events _ c.1

theorem outputs_cons_of_next {s t : State} {c : Byte × Word64} (h : present s c = .next t) (cs : List (Byte × Word64)) :
    outputs s (c :: cs) = (c.1, t.responses.head?) :: outputs t cs := by
  rw [outputs, h]

/-- Settles O19, by induction on the queue: one step answers its first command and leaves a resting machine with the rest. -/
theorem everyQueuedCommandIsAnswered : Obligations.EveryQueuedCommandIsAnswered := by
  intro s cs hrest
  induction cs generalizing s with
  | nil => exact ⟨withHost [] s, rfl, rfl, hrest, rfl, rfl⟩
  | cons c cs ih =>
    obtain ⟨t, r, hpresent, hrest', hresponses, -⟩ := present_atRest c hrest
    obtain ⟨u, hrun, hhost, hrestU, hlength, hanswers⟩ := ih t hrest'
    have hstep := step_queued_command (cs.map fun c => HostEvent.command c.1 c.2) s c hrest.1
    rw [hpresent] at hstep
    have houtputs := outputs_cons_of_next hpresent cs
    rw [hresponses, List.head?_cons] at houtputs
    refine ⟨u, (core_run_succ cs.length hstep).trans hrun, hhost, hrestU, ?_, ?_⟩
    · rw [houtputs, List.length_cons, hlength, List.length_cons]
    · rw [hanswers, houtputs, hresponses]
      simp

end Sys2Proof.Machine
end

section
/-! The four-phase machine (spec/40_draw.md R90, R93): what a step of a machine at rest and of one inside a command runs, and
that the phases, run one after another, do what the atomic draw does (log 10). -/

namespace Sys2Proof.Machine

/-! ### One step -/

/-- Inside a command, where no reset is presented, a step runs the micro-operation of `sel` and `phase`. -/
theorem step_microOp {s : State} (hbusy : s.phase ≠ .idle) (hhost : s.host.head? ≠ some .reset) :
    step s = advancePhase Config.params (exec (uopInstr s.sel s.phase) s) := by
  rw [step, fetch_microOp s hbusy hhost]

/-- Settles O5: `fetch` takes the command at the head of the host's events. -/
theorem stepRunsPresentedCommand : Obligations.StepRunsPresentedCommand := by
  intro s b h rest i hidle hhost hdecode
  obtain rfl : decodeCommand b = i := Except.ok.inj hdecode
  rw [step, fetch_command s b h rest hidle hhost]
  rfl

/-- Settles O6: `{sel, phase}` decodes to the micro-operation fetched, and `nextPhase` is the phase table. -/
theorem stepRunsMicroOperation : Obligations.StepRunsMicroOperation := by
  intro s i hbusy hhost hdecode
  obtain rfl : uopInstr s.sel s.phase = i := Except.ok.inj ((decode_encodeUop s.sel s.phase).symm.trans hdecode)
  rw [step_microOp hbusy hhost]
  cases hexec : exec (uopInstr s.sel s.phase) s with
  | next t =>
    rw [advancePhase_next, exec_uopInstr_phase hexec]
    cases s.phase <;> rfl
  | fault f => rfl
  | refused r => rfl

/-! ### The micro-operations of each engine, as `{sel, phase}` names them -/

/-- The state in another phase of the command. -/
def atPhase (ph : Phase) (s : State) : State := { s with phase := ph }

theorem exec_uop_seed32 {s : State} (hsel : s.sel = .e32) (ph : Phase) :
    exec (uopInstr s.sel .seed) (atPhase ph s) = .next (atPhase ph (seed32 Config.params s)) := by
  have hexec (u : State) : exec (uopInstr .e32 .seed) u = .next (seed32 Config.params u) := rfl
  have hphase (p : Params) : seed32 p (atPhase ph s) = atPhase ph (seed32 p s) := rfl
  rw [hsel, hexec, hphase]

theorem exec_uop_regen32 {s : State} (hsel : s.sel = .e32) (ph : Phase) :
    exec (uopInstr s.sel .regen) (atPhase ph s) = .next (atPhase ph (regen32 Config.params s)) := by
  have hexec (u : State) : exec (uopInstr .e32 .regen) u = .next (regen32 Config.params u) := rfl
  have hphase (p : Params) : regen32 p (atPhase ph s) = atPhase ph (regen32 p s) := rfl
  rw [hsel, hexec, hphase]

theorem exec_uop_emit32 {s : State} (hsel : s.sel = .e32) :
    exec (uopInstr s.sel .emit) s = emit32 Config.params s := by
  rw [hsel]; rfl

theorem exec_uop_seed64 {s : State} (hsel : s.sel = .e64) (ph : Phase) :
    exec (uopInstr s.sel .seed) (atPhase ph s) = .next (atPhase ph (seed64 Config.params s)) := by
  have hexec (u : State) : exec (uopInstr .e64 .seed) u = .next (seed64 Config.params u) := rfl
  have hphase (p : Params) : seed64 p (atPhase ph s) = atPhase ph (seed64 p s) := rfl
  rw [hsel, hexec, hphase]

theorem exec_uop_regen64 {s : State} (hsel : s.sel = .e64) (ph : Phase) :
    exec (uopInstr s.sel .regen) (atPhase ph s) = .next (atPhase ph (regen64 Config.params s)) := by
  have hexec (u : State) : exec (uopInstr .e64 .regen) u = .next (regen64 Config.params u) := rfl
  have hphase (p : Params) : regen64 p (atPhase ph s) = atPhase ph (regen64 p s) := rfl
  rw [hsel, hexec, hphase]

theorem exec_uop_emit64 {s : State} (hsel : s.sel = .e64) :
    exec (uopInstr s.sel .emit) s = emit64 Config.params s := by
  rw [hsel]; rfl

/-- EMIT reads no phase, and the phase after it is IDLE. -/
theorem advancePhase_emit32_atPhase (p q : Params) (s : State) :
    advancePhase q (emit32 p (atPhase .emit s)) = toIdle (emit32 p s) := by
  by_cases h : s.e32.idx.toNat < p.e32.n
  · rw [emit32_next p h, emit32_next p (s := atPhase .emit s) h]
    rfl
  · rw [emit32_stops p (Nat.not_lt.1 h), emit32_stops p (s := atPhase .emit s) (Nat.not_lt.1 h)]
    rfl

theorem advancePhase_emit64_atPhase (p q : Params) (s : State) :
    advancePhase q (emit64 p (atPhase .emit s)) = toIdle (emit64 p s) := by
  by_cases h : s.e64.idx.toNat < p.e64.n
  · rw [emit64_next p h, emit64_next p (s := atPhase .emit s) h]
    rfl
  · rw [emit64_stops p (Nat.not_lt.1 h), emit64_stops p (s := atPhase .emit s) (Nat.not_lt.1 h)]
    rfl

/-! ### The phases -/

/-- A phase that completes hands the state on to the next phase of the table. -/
theorem core_run_atPhase {s t : State} {ph : Phase} (k : Nat) (hbusy : ph ≠ .idle) (hhost : s.host.head? ≠ some .reset)
    (hexec : exec (uopInstr s.sel ph) (atPhase ph s) = .next (atPhase ph t)) :
    Host.Core.run core (k + 1) (atPhase ph s) = Host.Core.run core k (atPhase (nextPhase Config.params ph) t) :=
  core_run_succ k ((step_microOp (s := atPhase ph s) hbusy hhost).trans (congrArg (advancePhase Config.params) hexec))

/-- EMIT is the last phase. -/
theorem core_run_atPhase_emit {s : State} (hhost : s.host.head? ≠ some .reset) :
    Host.Core.run core 1 (atPhase .emit s) = toIdle (exec (uopInstr s.sel .emit) s) := by
  have hstep : step (atPhase .emit s) = advancePhase Config.params (exec (uopInstr s.sel .emit) (atPhase .emit s)) :=
    step_microOp (s := atPhase .emit s) Phase.noConfusion hhost
  rw [core_run_one, hstep]
  cases hsel : s.sel with
  | e32 => exact advancePhase_emit32_atPhase Config.params Config.params s
  | e64 => exact advancePhase_emit64_atPhase Config.params Config.params s

/-- REGEN, then EMIT. -/
theorem core_run_atPhase_regen {s t : State} (hhost : s.host.head? ≠ some .reset)
    (hregen : exec (uopInstr s.sel .regen) (atPhase .regen s) = .next (atPhase .regen t)) :
    Host.Core.run core 2 (atPhase .regen s) = toIdle (exec (uopInstr t.sel .emit) t) := by
  have hkept : t.host = s.host := (exec_samePorts hregen).host
  exact (core_run_atPhase 1 (by decide) hhost hregen).trans (core_run_atPhase_emit (hkept ▸ hhost))

/-- SEED, then REGEN, then EMIT (log 14). -/
theorem core_run_atPhase_seed {s t u : State} (hhost : s.host.head? ≠ some .reset)
    (hseed : exec (uopInstr s.sel .seed) (atPhase .seed s) = .next (atPhase .seed t))
    (hregen : exec (uopInstr t.sel .regen) (atPhase .regen t) = .next (atPhase .regen u)) :
    Host.Core.run core 3 (atPhase .seed s) = toIdle (exec (uopInstr u.sel .emit) u) := by
  have hkept : t.host = s.host := (exec_samePorts hseed).host
  exact (core_run_atPhase 2 (by decide) hhost hseed).trans (core_run_atPhase_regen (hkept ▸ hhost) hregen)

/-! ### A draw by its phases -/

/-- A draw whose cursor calls for neither SEED nor REGEN is EMIT alone. -/
theorem draw32_emit_only {p : Params} {s : State} (hu : s.e32.idx.toNat ≠ p.e32.n + 1) (hx : s.e32.idx.toNat ≠ p.e32.n) :
    draw32 p s = toIdle (emit32 p (latch32 p s)) := by
  have hu' := Bool.eq_false_iff.2 (mt (uninit_iff p.e32 s.e32).1 hu)
  have hx' := Bool.eq_false_iff.2 (mt (exhausted_iff p.e32 s.e32).1 hx)
  simp [draw32, hu', hx']

theorem draw64_emit_only {p : Params} {s : State} (hu : s.e64.idx.toNat ≠ p.e64.n + 1) (hx : s.e64.idx.toNat ≠ p.e64.n) :
    draw64 p s = toIdle (emit64 p (latch64 p s)) := by
  have hu' := Bool.eq_false_iff.2 (mt (uninit_iff p.e64 s.e64).1 hu)
  have hx' := Bool.eq_false_iff.2 (mt (exhausted_iff p.e64 s.e64).1 hx)
  simp [draw64, hu', hx']

theorem enterDraw32_eq (p : Params) (s : State) :
    enterDraw32 p s = atPhase (entryPhase (uninit p.e32 s.e32) (exhausted p.e32 s.e32)) (latch32 p s) := rfl

theorem enterDraw64_eq (p : Params) (s : State) :
    enterDraw64 p s = atPhase (entryPhase (uninit p.e64 s.e64) (exhausted p.e64 s.e64)) (latch64 p s) := rfl

/-- The three entries of the phase machine for E32 (spec/40_draw.md R93). -/
theorem core_run_enterDraw32 {s : State} (hhost : s.host.head? ≠ some .reset) :
    Host.Core.run core (if s.e32.idx.toNat = 625 then 3 else if s.e32.idx.toNat = 624 then 2 else 1)
      (enterDraw32 Config.params s) = draw32 Config.params s := by
  have hu_iff := uninit_iff Config.params.e32 s.e32
  have hx_iff := exhausted_iff Config.params.e32 s.e32
  rw [enterDraw32_eq]
  by_cases hu : s.e32.idx.toNat = 625
  · rw [if_pos hu, draw32_uninit hu postSeedIdx_params32, hu_iff.2 hu, ← exec_uop_emit32 (by simp)]
    exact core_run_atPhase_seed hhost (exec_uop_seed32 (by simp) _) (exec_uop_regen32 (by simp) _)
  have hu' := Bool.eq_false_iff.2 (mt hu_iff.1 hu)
  by_cases hx : s.e32.idx.toNat = 624
  · rw [if_neg hu, if_pos hx, draw32_exhausted hx, hu', hx_iff.2 hx, ← exec_uop_emit32 (by simp)]
    exact core_run_atPhase_regen hhost (exec_uop_regen32 (by simp) _)
  · have hx' := Bool.eq_false_iff.2 (mt hx_iff.1 hx)
    rw [if_neg hu, if_neg hx, draw32_emit_only hu hx, hu', hx', ← exec_uop_emit32 (by simp)]
    exact core_run_atPhase_emit hhost

/-- The three entries for E64. -/
theorem core_run_enterDraw64 {s : State} (hhost : s.host.head? ≠ some .reset) :
    Host.Core.run core (if s.e64.idx.toNat = 313 then 3 else if s.e64.idx.toNat = 312 then 2 else 1)
      (enterDraw64 Config.params s) = draw64 Config.params s := by
  have hu_iff := uninit_iff Config.params.e64 s.e64
  have hx_iff := exhausted_iff Config.params.e64 s.e64
  rw [enterDraw64_eq]
  by_cases hu : s.e64.idx.toNat = 313
  · rw [if_pos hu, draw64_uninit hu postSeedIdx_params64, hu_iff.2 hu, ← exec_uop_emit64 (by simp)]
    exact core_run_atPhase_seed hhost (exec_uop_seed64 (by simp) _) (exec_uop_regen64 (by simp) _)
  have hu' := Bool.eq_false_iff.2 (mt hu_iff.1 hu)
  by_cases hx : s.e64.idx.toNat = 312
  · rw [if_neg hu, if_pos hx, draw64_exhausted hx, hu', hx_iff.2 hx, ← exec_uop_emit64 (by simp)]
    exact core_run_atPhase_regen hhost (exec_uop_regen64 (by simp) _)
  · have hx' := Bool.eq_false_iff.2 (mt hx_iff.1 hx)
    rw [if_neg hu, if_neg hx, draw64_emit_only hu hx, hu', hx', ← exec_uop_emit64 (by simp)]
    exact core_run_atPhase_emit hhost

/-- Settles O13, by the entry the cursor calls for: the phases it names are the parts that the atomic draw runs. -/
theorem phaseMachineRefinesDraw : Obligations.PhaseMachineRefinesDraw :=
  fun _ hhost => ⟨core_run_enterDraw32 hhost, core_run_enterDraw64 hhost⟩

end Sys2Proof.Machine
end

section
/-! The regeneration pass as a function of the array's words (spec/42_regen.md R130, R131): what a step reads, that the pass
is in place, and that it reads no word outside the space. -/

namespace Sys2Proof.Machine

variable {w cw : Nat}

/-! ### The words of a space -/

/-- Two memories hold the same words below `n`. -/
def SameWords (n : Nat) (m m' : Mem w) : Prop := ∀ k, k < n → memRead m k = memRead m' k

theorem regenWord_congr {p : EngineParams w} {m m' : Mem w} (hm : SameWords p.n m m') {k : Nat} (hk : k < p.n) :
    regenWord p m k = regenWord p m' k := by
  have hread (j : Nat) : memRead m (j % p.n) = memRead m' (j % p.n) := hm _ (Nat.mod_lt j (Nat.zero_lt_of_lt hk))
  simp only [regenWord, regenYc, hm k hk, hread]

theorem foldl_regenWord_sameWords {p : EngineParams w} (ks : List Nat) (hks : ∀ k ∈ ks, k < p.n) {m m' : Mem w}
    (hm : SameWords p.n m m') :
    SameWords p.n (ks.foldl (fun m k => memWrite m k (regenWord p m k)) m)
      (ks.foldl (fun m k => memWrite m k (regenWord p m k)) m') := by
  induction ks generalizing m m' with
  | nil => exact hm
  | cons k ks ih =>
    refine ih (fun j hj => hks j (List.mem_cons_of_mem k hj)) fun j hj => ?_
    simp only [memRead_memWrite, regenWord_congr hm (hks k List.mem_cons_self), hm j hj]

/-- The words after a regeneration are a function of the words before it. -/
theorem regen_sameWords {p : EngineParams w} {e e' : Engine w cw} (hm : SameWords p.n e.mt e'.mt) :
    SameWords p.n (regen p e).mt (regen p e').mt := by
  rw [regen_mt, regen_mt]
  exact foldl_regenWord_sameWords _ (fun k hk => List.mem_range.1 hk) hm

/-- Regeneration writes nothing outside the space. -/
theorem regen_lookup_outside (p : EngineParams w) (e : Engine w cw) {k : Nat} (hk : p.n ≤ k) :
    memLookup (regen p e).mt k = memLookup e.mt k := by
  rw [regen_mt]
  exact memLookup_foldl_write_other (regenWord p) _ _ (by simpa using hk)

/-! ### In place -/

/-- What step `k` reads at distance `d`: the old word, or the new one where the index has wrapped. -/
theorem regen_read_ahead (p : EngineParams w) (e : Engine w cw) {k d : Nat} (hk : k < p.n) (hd : d < p.n) :
    memRead ((List.range k).foldl (fun m k => memWrite m k (regenWord p m k)) e.mt) ((k + d) % p.n)
      = if k + d < p.n then memRead e.mt (k + d) else memRead (regen p e).mt (k + d - p.n) := by
  rw [regen_prefix_read p e hk, mod_of_lt_two_mul (by omega)]
  by_cases hwrap : k + d < p.n
  · simp [hwrap]
  · simp [hwrap, show ¬ k ≤ k + d - p.n by omega]

/-- `REGEN_W` is an in-place, ascending pass (spec/42_regen.md R130). -/
theorem regen_inPlacePass {p : EngineParams w} (hp : p.wf) (hlags : p.lags ≠ []) (e : Engine w cw) :
    InPlacePass p (memRead e.mt) (memRead (regen p e).mt) := by
  intro k hk
  have ⟨_, _, hlag, _⟩ := hp
  have hself := regen_prefix_read p e hk k
  rw [if_pos le_rfl] at hself
  rw [regen_word p e hk, regenWord, regenYc, hself, regen_read_ahead p e hk (one_lt_n hp hlags)]
  exact List.foldl_ext _ _ _ fun acc lag hmem => congrArg (acc ^^^ ·) (regen_read_ahead p e hk (hlag lag hmem).2)

/-- A pass reads the old array below `N` only. -/
theorem InPlacePass.congr_old {p : EngineParams w} {old old' new : Nat → BitVec w} (hpass : InPlacePass p old new)
    (hold : ∀ k, k < p.n → old k = old' k) : InPlacePass p old' new := by
  intro k hk
  have hread (j : Nat) : (if j < p.n then old j else new (j - p.n)) = if j < p.n then old' j else new (j - p.n) :=
    ite_congr rfl (hold j) fun _ => rfl
  simp only [hpass k hk, hread, hold k hk]

end Sys2Proof.Machine
end

section
/-! A draw on one engine, said once for both widths (spec/40_draw.md R91, R92): the refill by the cursor, then EMIT; what it
writes, and which words of the engine it depends on. -/

namespace Sys2Proof.Machine

variable {w cw : Nat}

/-! ### The draw of an engine -/

/-- The engine before EMIT, by its cursor (spec/40_draw.md R93); `seeded` is what SEED makes of it. -/
def refill (p : EngineParams w) (seeded e : Engine w cw) : Engine w cw :=
  if e.idx.toNat = p.n + 1 then regen p seeded else if e.idx.toNat = p.n then regen p e else e

/-- The engine after a draw. -/
def drawEngine (p : EngineParams w) (seeded e : Engine w cw) : Engine w cw := emitEngine p (refill p seeded e)

section
variable {p : EngineParams w} {seeded e : Engine w cw}

theorem refill_uninit (h : e.idx.toNat = p.n + 1) : refill p seeded e = regen p seeded := if_pos h

theorem refill_exhausted (h : e.idx.toNat = p.n) : refill p seeded e = regen p e := by
  rw [refill, if_neg (by omega), if_pos h]

theorem refill_ready (h : e.idx.toNat < p.n) : refill p seeded e = e := by
  rw [refill, if_neg (by omega), if_neg (by omega)]

/-- The cursor before EMIT: that of the engine if it was ready, else 0. -/
theorem refill_idx (h : e.idx.toNat ≤ p.n + 1) :
    (refill p seeded e).idx.toNat = if e.idx.toNat < p.n then e.idx.toNat else 0 := by
  rcases Nat.lt_trichotomy e.idx.toNat p.n with hlt | heq | hgt
  · rw [refill_ready hlt, if_pos hlt]
  · rw [refill_exhausted heq, if_neg (by omega)]; simp
  · rw [refill_uninit (by omega), if_neg (by omega)]; simp

theorem refill_idx_lt (hz : Sized p cw p.n) (h : e.idx.toNat ≤ p.n + 1) : (refill p seeded e).idx.toNat < p.n := by
  have hpos := hz.pos
  rw [refill_idx h]
  split_ifs <;> omega

end

/-! ### What a draw writes -/

/-- SEED has written `word k` at every index `k` of the space, and of the rest of the engine only what
spec/41_seed.md R113 names. -/
structure SeededWith (p : EngineParams w) (word : Nat → BitVec w) (e e' : Engine w cw) : Prop where
  read : ∀ k, k < p.n → memRead e'.mt k = word k
  outside : ∀ k, p.n ≤ k → memLookup e'.mt k = memLookup e.mt k
  regenCount : e'.regenCount = e.regenCount

/-- What a draw makes of its engine (spec/40_draw.md R91 to R96); `word` is the array SEED writes. -/
structure Drawn (p : EngineParams w) (word : Nat → BitVec w) (e e' : Engine w cw) : Prop where
  uninit : e.idx.toNat = p.n + 1 → InPlacePass p word (memRead e'.mt)
  exhausted : e.idx.toNat = p.n → InPlacePass p (memRead e.mt) (memRead e'.mt)
  ready : e.idx.toNat < p.n → e'.mt = e.mt
  outside : ∀ k, p.n ≤ k → memLookup e'.mt k = memLookup e.mt k
  idx : e'.idx.toNat = if e.idx.toNat < p.n then e.idx.toNat + 1 else 1
  regenCount : e'.regenCount = if e.idx.toNat < p.n then e.regenCount else e.regenCount + 1#32
  raw : e'.raw = memRead e'.mt (e'.idx.toNat - 1)
  y : e'.y = temper p e'.raw

theorem drawEngine_idx {p : EngineParams w} {seeded e : Engine w cw} (hz : Sized p cw p.n) (h : e.idx.toNat ≤ p.n + 1) :
    (drawEngine p seeded e).idx.toNat = (refill p seeded e).idx.toNat + 1 :=
  emitEngine_idx_toNat hz (refill_idx_lt hz h)

theorem drawEngine_drawn {p : EngineParams w} {word : Nat → BitVec w} {seeded e : Engine w cw} (hp : p.wf)
    (hlags : p.lags ≠ []) (hz : Sized p cw p.n) (hs : SeededWith p word e seeded) (h : e.idx.toNat ≤ p.n + 1) :
    Drawn p word e (drawEngine p seeded e) where
  uninit hu := by
    rw [drawEngine, emitEngine_mt, refill_uninit hu]
    exact (regen_inPlacePass hp hlags seeded).congr_old hs.read
  exhausted hx := by
    rw [drawEngine, emitEngine_mt, refill_exhausted hx]
    exact regen_inPlacePass hp hlags e
  ready hr := by rw [drawEngine, emitEngine_mt, refill_ready hr]
  outside k hk := by
    rw [drawEngine, emitEngine_mt, refill]
    split_ifs
    · rw [regen_lookup_outside p seeded hk, hs.outside k hk]
    · exact regen_lookup_outside p e hk
    · rfl
  idx := by
    rw [drawEngine_idx hz h, refill_idx h]
    split_ifs <;> rfl
  regenCount := by
    rw [drawEngine, emitEngine_regenCount]
    rcases Nat.lt_trichotomy e.idx.toNat p.n with hlt | heq | hgt
    · rw [refill_ready hlt, if_pos hlt]
    · rw [refill_exhausted heq, if_neg (by omega), regen_regenCount]
    · rw [refill_uninit (by omega), if_neg (by omega), regen_regenCount, hs.regenCount]
  raw := by
    rw [drawEngine_idx hz h, Nat.add_sub_cancel]
    rfl
  y := rfl

/-! ### What a draw depends on -/

/-- The engines agree on the words of the space and on the cursor. -/
structure Alike (p : EngineParams w) (e e' : Engine w cw) : Prop where
  words : SameWords p.n e.mt e'.mt
  idx : e.idx = e'.idx

section
variable {p : EngineParams w} {seeded seeded' e e' : Engine w cw}

/-- An initialized engine is refilled from its own words. -/
theorem Alike.refill_initialized (ha : Alike p e e') (h : e.idx.toNat ≤ p.n) :
    Alike p (refill p seeded e) (refill p seeded' e') := by
  have hidx : e'.idx.toNat = e.idx.toNat := by rw [ha.idx]
  rcases Nat.lt_or_eq_of_le h with hlt | heq
  · rwa [refill_ready hlt, refill_ready (by omega)]
  · rw [refill_exhausted heq, refill_exhausted (by omega)]
    exact ⟨regen_sameWords ha.words, rfl⟩

/-- An uninitialized engine is refilled from the seeded words. -/
theorem alike_refill_uninit (h : e.idx.toNat = p.n + 1) (h' : e'.idx.toNat = p.n + 1)
    (hs : SameWords p.n seeded.mt seeded'.mt) : Alike p (refill p seeded e) (refill p seeded' e') := by
  rw [refill_uninit h, refill_uninit h']
  exact ⟨regen_sameWords hs, rfl⟩

/-- From engines that agree EMIT gives the same word and leaves engines that agree. -/
theorem Alike.emitEngine (ha : Alike p e e') (h : e.idx.toNat < p.n) :
    Alike p (emitEngine p e) (emitEngine p e') ∧ (emitEngine p e).raw = (emitEngine p e').raw ∧
      (emitEngine p e).y = (emitEngine p e').y := by
  have hraw : memRead e.mt e.idx.toNat = memRead e'.mt e'.idx.toNat := by rw [← ha.idx]; exact ha.words _ h
  exact ⟨⟨ha.words, congrArg (· + 1#cw) ha.idx⟩, hraw, congrArg (temper p) hraw⟩

end

/-! ### The draws after the first -/

/-- The engine after draw `j` (counted from 0), where `e0` is seeded and the counter stood at `c` (spec/40_draw.md R97,
R102): word `j mod N` of batch `j / N + 1` has been emitted. -/
structure AfterDraw (p : EngineParams w) (e0 : Engine w cw) (c : BitVec 32) (j : Nat) (e : Engine w cw) : Prop where
  idx : e.idx.toNat = j % p.n + 1
  regenCount : e.regenCount = c + BitVec.ofNat 32 (j / p.n + 1)
  words : SameWords p.n e.mt (batch p (j / p.n + 1) e0).mt
  raw : e.raw = memRead (batch p (j / p.n + 1) e0).mt (j % p.n)
  y : e.y = temper p e.raw

theorem batch_succ (p : EngineParams w) (b : Nat) (e : Engine w cw) : batch p (b + 1) e = regen p (batch p b e) :=
  Function.iterate_succ_apply' (regen p) b e

section
variable {p : EngineParams w} {e0 seeded e : Engine w cw} {c : BitVec 32} {j : Nat}

/-- EMIT of draw `j`, from an engine that holds the batch of draw `j` and stands at its word. -/
theorem emitEngine_afterDraw (hz : Sized p cw p.n) (hidx : e.idx.toNat = j % p.n)
    (hcount : e.regenCount = c + BitVec.ofNat 32 (j / p.n + 1))
    (hwords : SameWords p.n e.mt (batch p (j / p.n + 1) e0).mt) : AfterDraw p e0 c j (emitEngine p e) := by
  have hlt : j % p.n < p.n := Nat.mod_lt j hz.pos
  exact {
    idx := by rw [emitEngine_idx_toNat hz (hidx ▸ hlt), hidx]
    regenCount := hcount
    words := hwords
    raw := by rw [emitEngine_raw, hidx, hwords _ hlt]
    y := rfl }

/-- The first draw emits word 0 of batch 1. -/
theorem afterDraw_first (hz : Sized p cw p.n) (h : e.idx.toNat = p.n + 1) (hwords : SameWords p.n seeded.mt e0.mt) :
    AfterDraw p e0 seeded.regenCount 0 (drawEngine p seeded e) := by
  have hbatch : 0 / p.n + 1 = 1 := by rw [Nat.zero_div]
  rw [drawEngine, refill_uninit h]
  refine emitEngine_afterDraw hz (by simp) ?_ ?_
  · rw [regen_regenCount, hbatch]
  · rw [hbatch]; exact regen_sameWords hwords

/-- A later draw regenerates where the batch is used up and emits the next word. -/
theorem AfterDraw.draw (hz : Sized p cw p.n) (ha : AfterDraw p e0 c j e) :
    AfterDraw p e0 c (j + 1) (drawEngine p seeded e) := by
  have hlt : j % p.n < p.n := Nat.mod_lt j hz.pos
  have hsplit := Nat.div_add_mod j p.n
  rcases Nat.lt_or_eq_of_le (Nat.succ_le_of_lt hlt) with hmore | hlast
  · obtain ⟨hdiv, hmod⟩ : (j + 1) / p.n = j / p.n ∧ (j + 1) % p.n = j % p.n + 1 :=
      (Nat.div_mod_unique hz.pos).2 ⟨by omega, hmore⟩
    rw [drawEngine, refill_ready (by rw [ha.idx]; exact hmore)]
    exact emitEngine_afterDraw hz (ha.idx.trans hmod.symm) (hdiv ▸ ha.regenCount) (hdiv ▸ ha.words)
  · obtain ⟨hdiv, hmod⟩ : (j + 1) / p.n = j / p.n + 1 ∧ (j + 1) % p.n = 0 :=
      (Nat.div_mod_unique hz.pos).2 ⟨by rw [Nat.mul_add_one]; omega, hz.pos⟩
    rw [drawEngine, refill_exhausted (ha.idx.trans hlast)]
    refine emitEngine_afterDraw hz (by simp [hmod]) ?_ ?_
    · rw [regen_regenCount, ha.regenCount, hdiv, BitVec.add_assoc, ← BitVec.ofNat_add]
    · rw [hdiv, batch_succ]
      exact regen_sameWords ha.words

end

end Sys2Proof.Machine
end

section
/-! A draw as one transition of the whole state (spec/40_draw.md R91, R92), with the engine it seeds, and the instructions
`DRAW32` and `DRAW64` of the configuration `exec` runs. -/

namespace Sys2Proof.Machine

/-! ### Seeding -/

/-- The engine after `SEED32` with the handle operand `hIn` (spec/41_seed.md R110, R111, R113). -/
def seeded32 (p : Params) (hIn : Word32) (e : Engine 32 10) : Engine 32 10 :=
  { seedFill32 p.e32 (effectiveSeed p.e32 hIn) e with idx := postSeedIdx p p.e32.n 10 }

/-- The engine after `SEED64` with the handle operand `hIn` (spec/41_seed.md R110, R112, R113). -/
def seeded64 (p : Params) (hIn : Word64) (e : Engine 64 9) : Engine 64 9 :=
  { (seedFill64 p.e64 (effectiveSeed p.e64 hIn) e).1 with idx := postSeedIdx p p.e64.n 9 }

theorem seed32_eq_seeded (p : Params) (s : State) :
    seed32 p s = { s with e32 := seeded32 p (handleIn32 s.hIn) s.e32 } := rfl

theorem seed64_eq_seeded (p : Params) (s : State) :
    seed64 p s = { s with
      e64 := seeded64 p (handleIn64 s.hIn) s.e64
      lcg := (seedLcg p.e64)^[2 * p.e64.n] (effectiveSeed p.e64 (handleIn64 s.hIn)) } := by
  rw [← seedFill64_lcg p.e64 (effectiveSeed p.e64 (handleIn64 s.hIn)) s.e64]
  rfl

/-- The latched operand reads back as the operand (log 6). -/
theorem handleIn32_zeroExtend (x : Word32) : handleIn32 (x.zeroExtend 64) = x := by
  rw [handleIn32, BitVec.zeroExtend_eq_setWidth, BitVec.extractLsb'_setWidth_of_le (by decide),
    ← BitVec.setWidth_eq_extractLsb' le_rfl, BitVec.setWidth_eq]

/-- The recurrence of SEED32 in closed form: `SEEDINC` is 0. -/
theorem seedLcg_iterate_e32 (seed : Word32) (k : Nat) : (seedLcg Config.e32)^[k] seed = seedWord32 seed k := by
  induction k with
  | zero => simp [seedWord32]
  | succ k ih =>
    have hstep (x : Word32) : seedLcg Config.e32 x = 69069#32 * x := BitVec.add_zero _
    rw [Function.iterate_succ_apply', ih, hstep, seedWord32, seedWord32, pow_succ', BitVec.mul_assoc]

theorem seedFill32_lookup_outside {w cw : Nat} {p : EngineParams w} (seed : BitVec w) (e : Engine w cw) (hn : 0 < p.n)
    {k : Nat} (hk : p.n ≤ k) : memLookup (seedFill32 p seed e).mt k = memLookup e.mt k := by
  rw [seedFill32, foldl_seedStep32_mt, memLookup_foldl_write_other fun m k => seedLcg p (memRead m (k - 1))]
  · exact memLookup_memWrite_other e.mt seed (by omega)
  · rw [List.mem_range'_1]; omega

theorem foldl_seedStep64_lookup_other {cw : Nat} (p : EngineParams 64) (ks : List Nat) (x : Engine 64 cw × Word64) {j : Nat}
    (h : j ∉ ks) : memLookup (ks.foldl (seedStep64 p) x).1.mt j = memLookup x.1.mt j := by
  induction ks generalizing x with
  | nil => rfl
  | cons k ks ih =>
    rw [List.foldl_cons, ih _ fun hj => h (List.mem_cons_of_mem k hj)]
    exact memLookup_memWrite_other x.1.mt _ fun heq => h (heq ▸ List.mem_cons_self)

theorem seeded32_mt (p : Params) (hIn : Word32) (e : Engine 32 10) :
    (seeded32 p hIn e).mt = (seedFill32 p.e32 (effectiveSeed p.e32 hIn) e).mt := rfl

theorem seeded64_mt (p : Params) (hIn : Word64) (e : Engine 64 9) :
    (seeded64 p hIn e).mt = (seedFill64 p.e64 (effectiveSeed p.e64 hIn) e).1.mt := rfl

theorem seeded32_regenCount (p : Params) (hIn : Word32) (e : Engine 32 10) :
    (seeded32 p hIn e).regenCount = e.regenCount := by
  rw [seeded32, seedFill32_frame]

theorem seeded64_regenCount (p : Params) (hIn : Word64) (e : Engine 64 9) :
    (seeded64 p hIn e).regenCount = e.regenCount := by
  rw [seeded64, seedFill64_frame]

/-- SEED32 in the terms of `seedWord32`. -/
theorem seeded32_seededWith (hIn : Word32) (e : Engine 32 10) :
    SeededWith Config.params.e32 (seedWord32 (firstSeed hIn)) e (seeded32 Config.params hIn e) where
  read k hk := by
    rw [seeded32_mt, seedFill32_read Config.params.e32 _ e hk]
    exact seedLcg_iterate_e32 _ k
  outside k hk := by
    rw [seeded32_mt, seedFill32_lookup_outside _ e (by decide) hk]
  regenCount := seeded32_regenCount _ hIn e

/-- SEED64 in the terms of `seedWord64`. -/
theorem seeded64_seededWith (hIn : Word64) (e : Engine 64 9) :
    SeededWith Config.params.e64 (seedWord64 (firstSeed hIn)) e (seeded64 Config.params hIn e) where
  read k hk := by
    rw [seeded64_mt, seedFill64_read Config.params.e64 _ e hk]
    rfl
  outside k hk := by
    rw [seeded64_mt, seedFill64, foldl_seedStep64_lookup_other _ _ (e, _) (by simpa using hk)]
  regenCount := seeded64_regenCount _ hIn e

/-! ### The transition -/

/-- The engine E32 after a draw of `s`. -/
def drawnE32 (p : Params) (s : State) : Engine 32 10 := drawEngine p.e32 (seeded32 p (handleIn32 s.cmdHandle) s.e32) s.e32

/-- The engine E64 after a draw of `s`. -/
def drawnE64 (p : Params) (s : State) : Engine 64 9 := drawEngine p.e64 (seeded64 p (handleIn64 s.cmdHandle) s.e64) s.e64

/-- Whatever the cursor calls for, a draw is a refill of the engine, then EMIT. -/
theorem draw32_eq_emit {p : Params} {s : State} (h : s.e32.idx.toNat ≤ p.e32.n + 1)
    (hidx : (postSeedIdx p p.e32.n 10).toNat = p.e32.n) :
    draw32 p s = toIdle (emit32 p
      { latch32 p s with e32 := refill p.e32 (seeded32 p (handleIn32 s.cmdHandle) s.e32) s.e32 }) := by
  rcases Nat.lt_trichotomy s.e32.idx.toNat p.e32.n with hlt | heq | hgt
  · rw [draw32_ready hlt, refill_ready hlt]
    rfl
  · rw [draw32_exhausted heq, refill_exhausted heq]
    rfl
  · have hu : s.e32.idx.toNat = p.e32.n + 1 := by omega
    have hlatch : handleIn32 (latch32 p s).hIn = handleIn32 s.cmdHandle := by
      rw [latch32_hIn, if_pos ((uninit_iff p.e32 s.e32).2 hu), handleIn32_zeroExtend]
    rw [draw32_uninit hu hidx, refill_uninit hu, seed32_eq_seeded, hlatch]
    rfl

theorem draw64_eq_emit {p : Params} {s : State} (h : s.e64.idx.toNat ≤ p.e64.n + 1)
    (hidx : (postSeedIdx p p.e64.n 9).toNat = p.e64.n) :
    draw64 p s = toIdle (emit64 p
      { latch64 p s with
        e64 := refill p.e64 (seeded64 p (handleIn64 s.cmdHandle) s.e64) s.e64
        lcg := if s.e64.idx.toNat = p.e64.n + 1 then
          (seedLcg p.e64)^[2 * p.e64.n] (effectiveSeed p.e64 (handleIn64 s.cmdHandle)) else s.lcg }) := by
  rcases Nat.lt_trichotomy s.e64.idx.toNat p.e64.n with hlt | heq | hgt
  · rw [draw64_ready hlt, refill_ready hlt, if_neg (by omega)]
    rfl
  · rw [draw64_exhausted heq, refill_exhausted heq, if_neg (by omega)]
    rfl
  · have hu : s.e64.idx.toNat = p.e64.n + 1 := by omega
    have hlatch : handleIn64 (latch64 p s).hIn = handleIn64 s.cmdHandle := by
      rw [latch64_hIn, if_pos ((uninit_iff p.e64 s.e64).2 hu)]
      rfl
    rw [draw64_uninit hu hidx, refill_uninit hu, if_pos hu, seed64_eq_seeded, hlatch]
    rfl

/-- `DRAW32` from a legal cursor: everything the transition does. -/
theorem exec_draw32_eq {s : State} (h : s.e32.idx.toNat ≤ 625) :
    exec .draw32 s = .next { s with
      e32 := drawnE32 Config.params s
      phase := .idle
      sel := .e32
      hIn := if s.e32.idx.toNat = 625 then (handleIn32 s.cmdHandle).zeroExtend 64 else s.hIn
      responses := emitResponse Config.params (drawnE32 Config.params s).raw (drawnE32 Config.params s).y :: s.responses
      } := by
  have hdraw : exec .draw32 s = draw32 Config.params s := rfl
  have hlatch : (uninit Config.params.e32 s.e32 = true) = (s.e32.idx.toNat = 625) :=
    propext (uninit_iff Config.params.e32 s.e32)
  rw [hdraw, draw32_eq_emit h postSeedIdx_params32, emit32_next _ (refill_idx_lt sized_e32 h), toIdle_next]
  simp only [latch32, hlatch]
  rfl

/-- `DRAW64` from a legal cursor: everything the transition does. -/
theorem exec_draw64_eq {s : State} (h : s.e64.idx.toNat ≤ 313) :
    exec .draw64 s = .next { s with
      e64 := drawnE64 Config.params s
      phase := .idle
      sel := .e64
      hIn := if s.e64.idx.toNat = 313 then s.cmdHandle else s.hIn
      lcg := if s.e64.idx.toNat = 313 then seedRunning64 (firstSeed s.cmdHandle) 624 else s.lcg
      responses := emitResponse Config.params (drawnE64 Config.params s).raw (drawnE64 Config.params s).y :: s.responses
      } := by
  have hdraw : exec .draw64 s = draw64 Config.params s := rfl
  have hlatch : (uninit Config.params.e64 s.e64 = true) = (s.e64.idx.toNat = 313) :=
    propext (uninit_iff Config.params.e64 s.e64)
  rw [hdraw, draw64_eq_emit h postSeedIdx_params64, emit64_next _ (refill_idx_lt sized_e64 h), toIdle_next]
  simp only [latch64, hlatch]
  rfl

end Sys2Proof.Machine
end

section
/-! The obligations on a single draw (spec/40_draw.md R91 to R96). -/

namespace Sys2Proof.Machine

theorem params_e32_wf : Config.params.e32.wf := by
  obtain ⟨-, -, -, -, h32, -⟩ := parametersSatisfyConstraints
  exact h32

theorem params_e64_wf : Config.params.e64.wf := by
  obtain ⟨-, -, -, -, -, h64⟩ := parametersSatisfyConstraints
  exact h64

theorem drawnE32_drawn {s : State} (h : s.e32.idx.toNat ≤ 625) :
    Drawn Config.params.e32 (seedWord32 (firstSeed (handleIn32 s.cmdHandle))) s.e32 (drawnE32 Config.params s) :=
  drawEngine_drawn params_e32_wf (List.cons_ne_nil _ _) sized_e32 (seeded32_seededWith _ _) h

theorem drawnE64_drawn {s : State} (h : s.e64.idx.toNat ≤ 313) :
    Drawn Config.params.e64 (seedWord64 (firstSeed (handleIn64 s.cmdHandle))) s.e64 (drawnE64 Config.params s) :=
  drawEngine_drawn params_e64_wf (List.cons_ne_nil _ _) sized_e64 (seeded64_seededWith _ _) h

/-- Settles O10: the transition, with what a draw makes of its engine. -/
theorem draw32Result : Obligations.Draw32Result := by
  intro s h
  have hd := drawnE32_drawn h
  exact ⟨_, _, exec_draw32_eq h, rfl, hd.uninit, hd.exhausted, hd.ready, hd.outside, hd.idx, hd.regenCount, hd.raw, hd.y,
    rfl, rfl, rfl⟩

/-- Settles O11: the transition, with what a draw makes of its engine; a 64-bit handle is not extended. -/
theorem draw64Result : Obligations.Draw64Result := by
  intro s h
  have hd := drawnE64_drawn h
  exact ⟨_, _, exec_draw64_eq h, rfl, hd.uninit, hd.exhausted, hd.ready, hd.outside, hd.idx, hd.regenCount, hd.raw, hd.y,
    rfl, BitVec.setWidth_eq _, rfl⟩

/-- Two engines that show the same array, the same cursor and the same emitted word. -/
structure SameDraw {w cw : Nat} (e e' : Engine w cw) : Prop where
  mt : e'.mt = e.mt
  idx : e'.idx = e.idx
  raw : e'.raw = e.raw
  y : e'.y = e.y

theorem SameDraw.head_responses {w cw : Nat} {e e' : Engine w cw} (h : SameDraw e e') (p : Params) (rs rs' : List Response) :
    (emitResponse p e'.raw e'.y :: rs').head? = (emitResponse p e.raw e.y :: rs).head? := by
  rw [List.head?_cons, List.head?_cons, h.raw, h.y]

/-- A draw of an initialized engine reads its array and its cursor, and nothing of what SEED would make of it. -/
theorem drawEngine_sameDraw_initialized {w cw : Nat} {p : EngineParams w} {seeded seeded' e e' : Engine w cw}
    (h : e.idx.toNat ≤ p.n) (hmt : e'.mt = e.mt) (hidx : e'.idx = e.idx) :
    SameDraw (drawEngine p seeded e) (drawEngine p seeded' e') := by
  have hfilled : (refill p seeded' e').mt = (refill p seeded e).mt ∧ (refill p seeded' e').idx = (refill p seeded e).idx := by
    rcases Nat.lt_or_eq_of_le h with hlt | heq
    · rw [refill_ready hlt, refill_ready (hidx ▸ hlt)]
      exact ⟨hmt, hidx⟩
    · rw [refill_exhausted heq, refill_exhausted (hidx ▸ heq)]
      exact ⟨regen_mt_congr p hmt, rfl⟩
  obtain ⟨hmt', hidx'⟩ := hfilled
  constructor <;> simp only [drawEngine, emitEngine_mt, emitEngine_idx, emitEngine_raw, emitEngine_y, hmt', hidx']

/-- Settles O12: the array, the cursor and the emitted word of an initialized engine are refilled from the array and the
cursor before. -/
theorem laterDrawIgnoresHandle : Obligations.LaterDrawIgnoresHandle := by
  constructor
  · intro s s' h hmt hidx
    have hsame : SameDraw (drawnE32 Config.params s) (drawnE32 Config.params s') :=
      drawEngine_sameDraw_initialized h hmt hidx
    have h' : s'.e32.idx.toNat ≤ 624 := hidx ▸ h
    exact ⟨_, _, exec_draw32_eq (by omega), exec_draw32_eq (by omega), hsame.mt, hsame.idx, hsame.head_responses _ _ _⟩
  · intro s s' h hmt hidx
    have hsame : SameDraw (drawnE64 Config.params s) (drawnE64 Config.params s') :=
      drawEngine_sameDraw_initialized h hmt hidx
    have h' : s'.e64.idx.toNat ≤ 312 := hidx ▸ h
    exact ⟨_, _, exec_draw64_eq (by omega), exec_draw64_eq (by omega), hsame.mt, hsame.idx, hsame.head_responses _ _ _⟩

end Sys2Proof.Machine
end

section
/-! The stream of one width (spec/40_draw.md R97 to R102): an engine seen through the machine, the responses to a list of
draws as a function of the engine alone, and that a run of the machine gives them, whatever the other commands are. -/

namespace Sys2Proof.Machine

/-! ### An engine seen through the machine -/

/-- One of the two engines as the host reaches it, with what SEED and one command do to it. -/
structure Lane (w cw : Nat) where
  /-- The parameter record of the engine. -/
  p : EngineParams w
  /-- The command byte of its draws (spec/30_encoding.md R74). -/
  width : Byte
  /-- Where it stands in the state. -/
  engine : State → Engine w cw
  /-- The operand of a handle (spec/30_encoding.md R72). -/
  handleIn : Word64 → BitVec w
  /-- The array that SEED writes for an operand. -/
  seedWord : BitVec w → Nat → BitVec w
  /-- What SEED makes of the engine for an operand. -/
  seeded : BitVec w → Engine w cw → Engine w cw
  sized : Sized p cw p.n
  seededWith : ∀ hIn e, SeededWith p (seedWord hIn) e (seeded hIn e)
  /-- What a draw of a resting machine does to it (spec/40_draw.md R90 to R93). -/
  present_draw : ∀ {s}, AtRest s → ∀ h, ∃ t, present s (width, h) = .next t ∧
    engine t = drawEngine p (seeded (handleIn h) (engine s)) (engine s) ∧
    t.responses.head? = some (emitResponse Config.params (engine t).raw (engine t).y)
  /-- No other command touches it (spec/20_memory.md R50). -/
  present_other : ∀ {s t c}, present s c = .next t → c.1 ≠ width → engine t = engine s

theorem action32_decodeCommand_of_ne {b : Byte} (h : b ≠ 0x20#8) : action32 (decodeCommand b) = .keep := by
  rcases decodeCommand_width_cases b with ⟨hb, -⟩ | ⟨-, hdecode⟩ | ⟨-, hdecode⟩
  · exact absurd hb h
  · rw [hdecode]; rfl
  · rw [hdecode]; rfl

theorem action64_decodeCommand_of_ne {b : Byte} (h : b ≠ 0x40#8) : action64 (decodeCommand b) = .keep := by
  rcases decodeCommand_width_cases b with ⟨-, hdecode⟩ | ⟨hb, -⟩ | ⟨-, hdecode⟩
  · rw [hdecode]; rfl
  · exact absurd hb h
  · rw [hdecode]; rfl

/-- A command that is answered ran its instruction. -/
theorem exec_of_present {s t : State} {c : Byte × Word64} (h : present s c = .next t) :
    exec (decodeCommand c.1) (acceptCommand c.1 c.2 s.host s) = .next t := by
  rcases hostMove_cases h with ⟨hreset, -⟩ | ⟨width, handle, hcommand, -, hexec⟩
  · cases hreset
  · cases hcommand
    exact hexec

theorem drawnE32_acceptCommand (p : Params) (b : Byte) (h : Word64) (rest : List HostEvent) (s : State) :
    drawnE32 p (acceptCommand b h rest s) = drawEngine p.e32 (seeded32 p (handleIn32 h) s.e32) s.e32 := rfl

theorem drawnE64_acceptCommand (p : Params) (b : Byte) (h : Word64) (rest : List HostEvent) (s : State) :
    drawnE64 p (acceptCommand b h rest s) = drawEngine p.e64 (seeded64 p (handleIn64 h) s.e64) s.e64 := rfl

theorem present_draw32 {s : State} (hrest : AtRest s) (h : Word64) : ∃ t, present s (0x20#8, h) = .next t ∧
    t.e32 = drawEngine Config.params.e32 (seeded32 Config.params (handleIn32 h) s.e32) s.e32 ∧
    t.responses.head? = some (emitResponse Config.params t.e32.raw t.e32.y) := by
  obtain ⟨hidle, ⟨-, hidx, -⟩, -⟩ := hrest
  have hpresent : present s (0x20#8, h) = exec .draw32 (acceptCommand 0x20#8 h s.host s) :=
    hostMove_command_idle s 0x20#8 h hidle
  rw [hpresent, exec_draw32_eq (s := acceptCommand 0x20#8 h s.host s) hidx]
  exact ⟨_, rfl, drawnE32_acceptCommand _ _ _ _ _, rfl⟩

theorem present_draw64 {s : State} (hrest : AtRest s) (h : Word64) : ∃ t, present s (0x40#8, h) = .next t ∧
    t.e64 = drawEngine Config.params.e64 (seeded64 Config.params (handleIn64 h) s.e64) s.e64 ∧
    t.responses.head? = some (emitResponse Config.params t.e64.raw t.e64.y) := by
  obtain ⟨hidle, -, ⟨-, hidx, -⟩, -⟩ := hrest
  have hpresent : present s (0x40#8, h) = exec .draw64 (acceptCommand 0x40#8 h s.host s) :=
    hostMove_command_idle s 0x40#8 h hidle
  rw [hpresent, exec_draw64_eq (s := acceptCommand 0x40#8 h s.host s) hidx]
  exact ⟨_, rfl, drawnE64_acceptCommand _ _ _ _ _, rfl⟩

theorem present_keeps_e32 {s t : State} {c : Byte × Word64} (h : present s c = .next t) (hne : c.1 ≠ 0x20#8) :
    t.e32 = s.e32 := by
  have hkept := exec_keeps_e32 (exec_of_present h) (action32_decodeCommand_of_ne hne)
  rwa [acceptCommand_e32] at hkept

theorem present_keeps_e64 {s t : State} {c : Byte × Word64} (h : present s c = .next t) (hne : c.1 ≠ 0x40#8) :
    t.e64 = s.e64 := by
  obtain ⟨hkept, -⟩ := exec_keeps_e64_lcg (exec_of_present h) (action64_decodeCommand_of_ne hne)
  rwa [acceptCommand_e64] at hkept

/-- E32 through the machine. -/
def lane32 : Lane 32 10 where
  p := Config.params.e32
  width := 0x20#8
  engine := State.e32
  handleIn := handleIn32
  seedWord hIn := seedWord32 (firstSeed hIn)
  seeded := seeded32 Config.params
  sized := sized_e32
  seededWith := seeded32_seededWith
  present_draw := present_draw32
  present_other := present_keeps_e32

/-- E64 through the machine. -/
def lane64 : Lane 64 9 where
  p := Config.params.e64
  width := 0x40#8
  engine := State.e64
  handleIn := handleIn64
  seedWord hIn := seedWord64 (firstSeed hIn)
  seeded := seeded64 Config.params
  sized := sized_e64
  seededWith := seeded64_seededWith
  present_draw := present_draw64
  present_other := present_keeps_e64

namespace Lane

variable {w cw : Nat} (L : Lane w cw)

/-- The engine after a draw with the handle `h`. -/
def draw (e : Engine w cw) (h : Word64) : Engine w cw := drawEngine L.p (L.seeded (L.handleIn h) e) e

/-- What the host sees of a draw, from the engine after it. -/
def answer (e : Engine w cw) : Byte × Option Response := (L.width, some (emitResponse Config.params e.raw e.y))

/-- The answers to draws with the handles `hs`, from the engine alone. -/
def stream (e : Engine w cw) : List Word64 → List (Byte × Option Response)
  | [] => []
  | h :: hs => L.answer (L.draw e h) :: stream (L.draw e h) hs

/-- `DRAW` commands of this width with the given handles. -/
def draws (hs : List Word64) : List (Byte × Word64) := hs.map fun h => (L.width, h)

/-- The handles of the commands of this width. -/
def handles (cs : List (Byte × Word64)) : List Word64 := (cs.filter (·.1 = L.width)).map Prod.snd

/-! ### A run of the machine -/

variable {L} {s : State}

/-- A draw of this width, as one step of a run. -/
theorem present_draw_step (hrest : AtRest s) (h : Word64) :
    ∃ t, present s (L.width, h) = .next t ∧ AtRest t ∧ L.engine t = L.draw (L.engine s) h ∧
      (L.width, t.responses.head?) = L.answer (L.draw (L.engine s) h) := by
  obtain ⟨t, hpresent, hengine, hresponse⟩ := L.present_draw hrest h
  obtain ⟨t', -, hpresent', hrest', -⟩ := present_atRest (L.width, h) hrest
  obtain rfl : t' = t := by rw [hpresent'] at hpresent; injection hpresent
  exact ⟨t', hpresent', hrest', hengine, by rw [hresponse, hengine]; rfl⟩

/-- Draws of this width alone are answered by the stream of the engine. -/
theorem outputs_draws (hrest : AtRest s) (hs : List Word64) :
    outputs s (L.draws hs) = L.stream (L.engine s) hs := by
  induction hs generalizing s with
  | nil => rfl
  | cons h hs ih =>
    obtain ⟨t, hpresent, hrest', hengine, hanswer⟩ := L.present_draw_step hrest h
    rw [draws, List.map_cons, outputs_cons_of_next hpresent, hanswer, stream, ← hengine]
    exact congrArg _ (ih hrest')

/-- So are draws of this width among any other commands: the others do not touch the engine. -/
theorem outputs_filter (hrest : AtRest s) (cs : List (Byte × Word64)) :
    (outputs s cs).filter (·.1 = L.width) = L.stream (L.engine s) (L.handles cs) := by
  induction cs generalizing s with
  | nil => rfl
  | cons c cs ih =>
    by_cases hc : c.1 = L.width
    · obtain ⟨b, h⟩ := c
      obtain rfl : b = L.width := hc
      obtain ⟨t, hpresent, hrest', hengine, hanswer⟩ := L.present_draw_step hrest h
      rw [outputs_cons_of_next hpresent, hanswer, List.filter_cons_of_pos (by simp [answer]), ih hrest', hengine, handles,
        handles, List.filter_cons_of_pos (by simp), List.map_cons, stream]
    · obtain ⟨t, -, hpresent, hrest', -⟩ := present_atRest c hrest
      rw [outputs_cons_of_next hpresent, List.filter_cons_of_neg (by simpa using hc), ih hrest',
        L.present_other hpresent hc, handles, handles, List.filter_cons_of_neg (by simpa using hc)]

/-- The engine after a run of draws. -/
theorem stateAfter_draws (hrest : AtRest s) (hs : List Word64) :
    ∃ t, stateAfter s (L.draws hs) = .next t ∧ L.engine t = hs.foldl L.draw (L.engine s) := by
  induction hs generalizing s with
  | nil => exact ⟨s, rfl, rfl⟩
  | cons h hs ih =>
    obtain ⟨u, hpresent, hrest', hengine, -⟩ := L.present_draw_step hrest h
    obtain ⟨t, hafter, hengine'⟩ := ih hrest'
    refine ⟨t, ?_, by rw [hengine', hengine, List.foldl_cons]⟩
    rw [draws, List.map_cons, stateAfter, hpresent]
    exact hafter

/-! ### The stream -/

/-- Answer `j` shows the engine after draw `j`. -/
theorem stream_getElem? (e : Engine w cw) {hs : List Word64} {j : Nat} (hj : j < hs.length) :
    (L.stream e hs)[j]? = some (L.answer ((hs.take (j + 1)).foldl L.draw e)) := by
  induction hs generalizing e j with
  | nil => simp at hj
  | cons h hs ih =>
    cases j with
    | zero => rfl
    | succ j => exact ih (L.draw e h) (Nat.lt_of_succ_lt_succ hj)

/-- The engine after draw `j` of an uninitialized engine, where `e0` holds the words seeded by the first handle. -/
theorem foldl_draw_afterDraw {e e0 : Engine w cw} (hu : e.idx.toNat = L.p.n + 1) (h : Word64) (hs : List Word64)
    (hwords : ∀ k, k < L.p.n → memRead e0.mt k = L.seedWord (L.handleIn h) k) :
    AfterDraw L.p e0 e.regenCount hs.length ((h :: hs).foldl L.draw e) := by
  have hseed := L.seededWith (L.handleIn h) e
  induction hs using List.reverseRecOn with
  | nil =>
    rw [← hseed.regenCount]
    exact afterDraw_first L.sized hu fun k hk => (hseed.read k hk).trans (hwords k hk).symm
  | append_singleton hs h' ih =>
    rw [← List.cons_append, List.foldl_append, List.length_append]
    exact ih.draw L.sized

theorem draw_idx_le {e : Engine w cw} (h : Word64) (hidx : e.idx.toNat ≤ L.p.n + 1) : (L.draw e h).idx.toNat ≤ L.p.n :=
  (emitEngine_idx_mem L.sized (refill_idx_lt L.sized hidx)).2

/-- Draws of engines whose refills agree are answered alike and leave engines that agree. -/
theorem draw_alike {e e' : Engine w cw} {h h' : Word64} (hidx : e.idx.toNat ≤ L.p.n + 1)
    (hfilled : Alike L.p (refill L.p (L.seeded (L.handleIn h) e) e) (refill L.p (L.seeded (L.handleIn h') e') e')) :
    Alike L.p (L.draw e h) (L.draw e' h') ∧ L.answer (L.draw e h) = L.answer (L.draw e' h') := by
  obtain ⟨halike, hraw, hy⟩ := hfilled.emitEngine (refill_idx_lt L.sized hidx)
  exact ⟨halike, congrArg₂ (fun raw y => (L.width, some (emitResponse Config.params raw y))) hraw hy⟩

/-- Engines that agree and are initialized give the same stream, whatever the handles are (spec/40_draw.md R95). -/
theorem stream_congr_initialized {e e' : Engine w cw} (ha : Alike L.p e e') (hidx : e.idx.toNat ≤ L.p.n)
    {hs hs' : List Word64} (hlen : hs.length = hs'.length) : L.stream e hs = L.stream e' hs' := by
  induction hs generalizing e e' hs' with
  | nil => rw [List.length_eq_zero_iff.1 hlen.symm]; rfl
  | cons h hs ih =>
    obtain ⟨h', hs', rfl⟩ := List.exists_cons_of_length_eq_add_one hlen.symm
    have hidx' := Nat.le_succ_of_le hidx
    obtain ⟨halike, hanswer⟩ := draw_alike (h := h) (h' := h') hidx' (ha.refill_initialized hidx)
    rw [stream, stream, hanswer, ih halike (draw_idx_le h hidx') (Nat.succ.inj hlen)]

/-- From uninitialized engines the stream is a function of the array that the first handle seeds (spec/40_draw.md R98). -/
theorem stream_congr_first {e e' : Engine w cw} (hu : e.idx.toNat = L.p.n + 1) (hu' : e'.idx.toNat = L.p.n + 1)
    {h h' : Word64} (hseed : L.seedWord (L.handleIn h) = L.seedWord (L.handleIn h')) {hs hs' : List Word64}
    (hlen : hs.length = hs'.length) : L.stream e (h :: hs) = L.stream e' (h' :: hs') := by
  have hwords : SameWords L.p.n (L.seeded (L.handleIn h) e).mt (L.seeded (L.handleIn h') e').mt := fun k hk => by
    rw [(L.seededWith _ e).read k hk, (L.seededWith _ e').read k hk, hseed]
  obtain ⟨halike, hanswer⟩ := draw_alike (h := h) (h' := h') hu.le (alike_refill_uninit hu hu' hwords)
  rw [stream, stream, hanswer, stream_congr_initialized halike (draw_idx_le h hu.le) hlen]

/-! ### The rules of spec/40_draw.md for one width -/

theorem draws_handles (cs : List (Byte × Word64)) : L.draws (L.handles cs) = cs.filter (·.1 = L.width) := by
  rw [draws, handles, List.map_map]
  refine List.map_congr_left (g := id) (fun c hc => ?_) |>.trans (List.map_id _)
  have hwidth : c.1 = L.width := by simpa using (List.mem_filter.1 hc).2
  exact congrArg (·, c.2) hwidth.symm

/-- Other commands do not change the sequence of this width (spec/40_draw.md R100). -/
theorem outputs_filter_eq_outputs (hrest : AtRest s) (cs : List (Byte × Word64)) :
    (outputs s cs).filter (·.1 = L.width) = outputs s (cs.filter (·.1 = L.width)) := by
  rw [outputs_filter hrest, ← outputs_draws hrest, draws_handles]

/-- The sequence of this width is a function of the first operand (spec/40_draw.md R98). -/
theorem outputs_filter_congr {s' : State} {cs cs' : List (Byte × Word64)} (hrest : AtRest s) (hrest' : AtRest s')
    (hu : (L.engine s).idx.toNat = L.p.n + 1) (hu' : (L.engine s').idx.toNat = L.p.n + 1)
    (hlen : (cs.filter (·.1 = L.width)).length = (cs'.filter (·.1 = L.width)).length)
    (hfirst : (cs.filter (·.1 = L.width)).head?.map (L.handleIn ·.2) =
      (cs'.filter (·.1 = L.width)).head?.map (L.handleIn ·.2)) :
    (outputs s cs).filter (·.1 = L.width) = (outputs s' cs').filter (·.1 = L.width) := by
  rw [outputs_filter hrest, outputs_filter hrest', handles, handles]
  cases hcs : cs.filter (·.1 = L.width) with
  | nil =>
    rw [hcs] at hlen
    rw [List.length_eq_zero_iff.1 hlen.symm]
    rfl
  | cons c ds =>
    rw [hcs] at hlen hfirst
    obtain ⟨c', ds', hcs'⟩ := List.exists_cons_of_length_eq_add_one hlen.symm
    rw [hcs'] at hlen hfirst ⊢
    have hoperand : L.handleIn c.2 = L.handleIn c'.2 := Option.some.inj hfirst
    exact stream_congr_first hu hu' (congrArg L.seedWord hoperand) (by simpa using hlen)

/-- The engine after a run of draws that starts uninitialized (spec/40_draw.md R97). -/
theorem stateAfter_afterDraw (hrest : AtRest s) (hu : (L.engine s).idx.toNat = L.p.n + 1) (h : Word64) (hs : List Word64)
    {e0 : Engine w cw} (hwords : ∀ k, k < L.p.n → memRead e0.mt k = L.seedWord (L.handleIn h) k) :
    ∃ t, stateAfter s (L.draws (h :: hs)) = .next t ∧
      AfterDraw L.p e0 (L.engine s).regenCount hs.length (L.engine t) := by
  obtain ⟨t, hafter, hengine⟩ := stateAfter_draws (L := L) hrest (h :: hs)
  exact ⟨t, hafter, hengine ▸ foldl_draw_afterDraw hu h hs hwords⟩

/-- Answer `j` of a run of draws is the word of `AfterDraw` (spec/40_draw.md R102). -/
theorem outputs_draws_getElem? (hrest : AtRest s) (hu : (L.engine s).idx.toNat = L.p.n + 1) (h : Word64)
    {hs : List Word64} {e0 : Engine w cw} (hwords : ∀ k, k < L.p.n → memRead e0.mt k = L.seedWord (L.handleIn h) k)
    {j : Nat} (hj : j < (h :: hs).length) :
    ∃ e, (outputs s (L.draws (h :: hs)))[j]? = some (L.answer e) ∧ AfterDraw L.p e0 (L.engine s).regenCount j e := by
  have hafter := foldl_draw_afterDraw hu h (hs.take j) hwords
  rw [List.length_take_of_le (Nat.le_of_lt_succ hj)] at hafter
  refine ⟨_, ?_, hafter⟩
  rw [outputs_draws hrest, stream_getElem? _ hj, List.take_succ_cons]

end Lane

end Sys2Proof.Machine
end

section
/-! The obligations on streams (spec/40_draw.md R97 to R102), for the two widths. -/

namespace Sys2Proof.Machine

/-- Settles O15: on each width the answers are the stream of its first operand. -/
theorem streamIsFunctionOfFirstSeed : Obligations.StreamIsFunctionOfFirstSeed :=
  ⟨fun _ _ _ _ => lane32.outputs_filter_congr, fun _ _ _ _ => lane64.outputs_filter_congr⟩

/-- Settles O16: each width is answered by the stream of its engine, which no other command touches. -/
theorem enginesAreIndependent : Obligations.EnginesAreIndependent := fun _ cs hrest =>
  ⟨lane32.outputs_filter_eq_outputs hrest cs, lane64.outputs_filter_eq_outputs hrest cs⟩

/-- Settles O14: zero and `DEFSEED` seed the same array. -/
theorem zeroSeedStreamIsDefaultStream : Obligations.ZeroSeedStreamIsDefaultStream := by
  constructor
  · intro s h h' hs hrest hu hzero hdefault
    have hseed : lane32.seedWord (lane32.handleIn h) = lane32.seedWord (lane32.handleIn h') := by
      show seedWord32 (firstSeed (h.extractLsb' 0 32)) = seedWord32 (firstSeed (h'.extractLsb' 0 32))
      rw [hzero, hdefault]
      rfl
    exact (lane32.outputs_draws hrest (h :: hs)).trans
      ((Lane.stream_congr_first hu hu hseed rfl).trans (lane32.outputs_draws hrest (h' :: hs)).symm)
  · intro s hs hrest hu
    have hseed : lane64.seedWord (lane64.handleIn 0#64) = lane64.seedWord (lane64.handleIn Config.e64.defSeed) := rfl
    exact (lane64.outputs_draws hrest (0#64 :: hs)).trans
      ((Lane.stream_congr_first hu hu hseed rfl).trans (lane64.outputs_draws hrest (_ :: hs)).symm)

/-- The counter after draw `m` (counted from 0) counts the batches begun: `ceil((m + 1) / n)` of them. -/
theorem batches_begun {n : Nat} (hn : 0 < n) (m : Nat) : m / n + 1 = (m + 1 + (n - 1)) / n := by
  rw [show m + 1 + (n - 1) = m + n by omega, Nat.add_div_right m hn]

/-- Settles O17: the cursor and the counter of `AfterDraw`, from the counter 0 of reset. -/
theorem cursorAndRegenerationsAfterDraws : Obligations.CursorAndRegenerationsAfterDraws := by
  constructor
  · intro hs hne
    obtain ⟨h, hs, rfl⟩ := List.exists_cons_of_ne_nil hne
    obtain ⟨t, hafter, hdraw⟩ :=
      lane32.stateAfter_afterDraw resetIsLegal rfl h hs (lane32.seededWith _ State.reset.e32).read
    have hcount : t.e32.regenCount = 0#32 + BitVec.ofNat 32 (hs.length / 624 + 1) := hdraw.regenCount
    rw [BitVec.zero_add, batches_begun (by decide)] at hcount
    exact ⟨t, hafter, hdraw.idx, hcount⟩
  · intro hs hne
    obtain ⟨h, hs, rfl⟩ := List.exists_cons_of_ne_nil hne
    obtain ⟨t, hafter, hdraw⟩ :=
      lane64.stateAfter_afterDraw resetIsLegal rfl h hs (lane64.seededWith _ State.reset.e64).read
    have hcount : t.e64.regenCount = 0#32 + BitVec.ofNat 32 (hs.length / 312 + 1) := hdraw.regenCount
    rw [BitVec.zero_add, batches_begun (by decide)] at hcount
    exact ⟨t, hafter, hdraw.idx, hcount⟩

/-- The response of a draw of E64: its handle needs no extension (spec/30_encoding.md R73). -/
theorem emitResponse_word64 (raw y : Word64) : emitResponse Config.params raw y =
    { fault := .noFault, handle := y, result := some (bits64 (cvt .castThenDivide y)) } := by
  have hresponse : emitResponse Config.params raw y = drawResponse y (bits64 (cvt .castThenDivide y)) := rfl
  rw [hresponse, drawResponse, BitVec.zeroExtend_eq_setWidth, BitVec.setWidth_eq]

/-- Settles O18: draw `j` is answered by the word of `AfterDraw`. -/
theorem streamClosedFormula : Obligations.StreamClosedFormula := by
  constructor
  · intro h hs e0 j hwords hj
    obtain ⟨e, hanswer, hdraw⟩ := lane32.outputs_draws_getElem? resetIsLegal rfl h hwords hj
    have hy : e.y = temper Config.e32 (memRead (batch Config.e32 (j / 624 + 1) e0).mt (j % 624)) :=
      hdraw.y.trans (congrArg _ hdraw.raw)
    refine Eq.trans hanswer ?_
    rw [← hy]
    rfl
  · intro h hs e0 j hwords hj
    obtain ⟨e, hanswer, hdraw⟩ := lane64.outputs_draws_getElem? resetIsLegal rfl h hwords hj
    have hy : e.y = temper Config.e64 (memRead (batch Config.e64 (j / 312 + 1) e0).mt (j % 312)) :=
      hdraw.y.trans (congrArg _ hdraw.raw)
    refine Eq.trans hanswer ?_
    rw [← hy]
    exact congrArg (fun r => some (0x40#8, some r)) (emitResponse_word64 e.raw e.y)

end Sys2Proof.Machine
end

section
/-! The obligations on seeding (spec/41_seed.md R110 to R114). -/

namespace Sys2Proof.Machine

/-! ### The seeded array -/

/-- In a full space the words that SEED has written are look-ups too. -/
theorem SeededWith.lookup {w cw : Nat} {p : EngineParams w} {word : Nat → BitVec w} {e e' : Engine w cw}
    (hs : SeededWith p word e e') (hfull : memFull p.n e'.mt) {k : Nat} (hk : k < p.n) :
    memLookup e'.mt k = some (word k) := by
  rw [memLookup_of_full hfull hk, hs.read k hk]

/-- Canonical arrays that hold the same seeded words are equal: no word of the array before is left. -/
theorem SeededWith.mt_eq {w cw : Nat} {p : EngineParams w} {word : Nat → BitVec w} {e₁ e₁' e₂ e₂' : Engine w cw}
    (hs₁ : SeededWith p word e₁ e₁') (hs₂ : SeededWith p word e₂ e₂') (hfull₁ : memFull p.n e₁'.mt)
    (hfull₂ : memFull p.n e₂'.mt) (hwf₁ : Mem.wf p.n e₁'.mt) (hwf₂ : Mem.wf p.n e₂'.mt) : e₁'.mt = e₂'.mt := by
  refine mem_ext hwf₁ hwf₂ fun k => ?_
  rcases Nat.lt_or_ge k p.n with hk | hk
  · rw [hs₁.lookup hfull₁ hk, hs₂.lookup hfull₂ hk]
  · rw [memLookup_eq_none_of_wf hwf₁ hk, memLookup_eq_none_of_wf hwf₂ hk]

theorem seeded32_full (p : Params) (hIn : Word32) (e : Engine 32 10) : memFull p.e32.n (seeded32 p hIn e).mt :=
  seedFill32_full p.e32 _ e

theorem seeded64_full (p : Params) (hIn : Word64) (e : Engine 64 9) : memFull p.e64.n (seeded64 p hIn e).mt :=
  seedFill64_full p.e64 _ e

theorem seeded32_wf {p : Params} (hIn : Word32) {e : Engine 32 10} (hn : 0 < p.e32.n) (h : Mem.wf p.e32.n e.mt) :
    Mem.wf p.e32.n (seeded32 p hIn e).mt := seedFill32_wf p.e32 _ hn h

theorem seeded64_wf {p : Params} (hIn : Word64) {e : Engine 64 9} (h : Mem.wf p.e64.n e.mt) :
    Mem.wf p.e64.n (seeded64 p hIn e).mt := seedFill64_wf p.e64 _ h

/-- The array of SEED32 is a function of the seed, whatever canonical array stood there. -/
theorem seeded32_mt_congr (hIn : Word32) {e e' : Engine 32 10} (h : Mem.wf Config.params.e32.n e.mt)
    (h' : Mem.wf Config.params.e32.n e'.mt) :
    (seeded32 Config.params hIn e).mt = (seeded32 Config.params hIn e').mt :=
  (seeded32_seededWith hIn e).mt_eq (seeded32_seededWith hIn e') (seeded32_full _ _ _) (seeded32_full _ _ _)
    (seeded32_wf _ (by decide) h) (seeded32_wf _ (by decide) h')

/-- The array of SEED64 is a function of the seed, whatever canonical array stood there. -/
theorem seeded64_mt_congr (hIn : Word64) {e e' : Engine 64 9} (h : Mem.wf Config.params.e64.n e.mt)
    (h' : Mem.wf Config.params.e64.n e'.mt) :
    (seeded64 Config.params hIn e).mt = (seeded64 Config.params hIn e').mt :=
  (seeded64_seededWith hIn e).mt_eq (seeded64_seededWith hIn e') (seeded64_full _ _ _) (seeded64_full _ _ _)
    (seeded64_wf _ h) (seeded64_wf _ h')

/-! ### The transition -/

theorem seed32_eq_seeded_mt (p : Params) (s : State) (h : 1 < p.e32.n) : seed32 p s = { s with
    e32 := { s.e32 with
      mt := (seeded32 p (handleIn32 s.hIn) s.e32).mt
      idx := postSeedIdx p p.e32.n 10
      k := BitVec.ofNat 10 (p.e32.n - 1) } } :=
  seed32_eq p s h

theorem seed64_eq_seeded_mt (p : Params) (s : State) (h : 0 < p.e64.n) : seed64 p s = { s with
    e64 := { s.e64 with
      mt := (seeded64 p (handleIn64 s.hIn) s.e64).mt
      idx := postSeedIdx p p.e64.n 9
      k := BitVec.ofNat 9 (p.e64.n - 1) }
    lcg := (seedLcg p.e64)^[2 * p.e64.n] (effectiveSeed p.e64 (handleIn64 s.hIn)) } :=
  seed64_eq p s h

/-- `SEED32`: everything the transition does. -/
theorem exec_seed32_eq (s : State) : exec .seed32 s = .next { s with
    e32 := { s.e32 with mt := (seeded32 Config.params (handleIn32 s.hIn) s.e32).mt, idx := 624#10, k := 623#10 } } :=
  congrArg Host.Outcome.next (seed32_eq_seeded_mt Config.params s (by decide))

/-- `SEED64`: everything the transition does. -/
theorem exec_seed64_eq (s : State) : exec .seed64 s = .next { s with
    e64 := { s.e64 with mt := (seeded64 Config.params (handleIn64 s.hIn) s.e64).mt, idx := 312#9, k := 311#9 }
    lcg := seedRunning64 (firstSeed s.hIn) 624 } :=
  congrArg Host.Outcome.next (seed64_eq_seeded_mt Config.params s (by decide))

/-- Settles O20: the transition, with the words of the seeded array. -/
theorem seed32Result : Obligations.Seed32Result := fun s =>
  have hs := seeded32_seededWith (handleIn32 s.hIn) s.e32
  ⟨_, exec_seed32_eq s, fun _ => hs.lookup (seeded32_full _ _ _), hs.outside⟩

/-- Settles O21: the transition, with the words of the seeded array. -/
theorem seed64Result : Obligations.Seed64Result := fun s =>
  have hs := seeded64_seededWith (handleIn64 s.hIn) s.e64
  ⟨_, exec_seed64_eq s, fun _ => hs.lookup (seeded64_full _ _ _), hs.outside⟩

/-- Settles O22: the array before enters the transition through the seeded array alone, which is the same for every
canonical one. -/
theorem seedingReadsNoArray : Obligations.SeedingReadsNoArray := by
  constructor
  · intro s m m' hm hm'
    simp only [exec_seed32_eq]
    rw [seeded32_mt_congr (handleIn32 s.hIn) (e := { s.e32 with mt := m }) (e' := { s.e32 with mt := m' }) hm hm']
  · intro s m m' hm hm'
    simp only [exec_seed64_eq]
    rw [seeded64_mt_congr (handleIn64 s.hIn) (e := { s.e64 with mt := m }) (e' := { s.e64 with mt := m' }) hm hm']

/-! ### No zero word -/

theorem firstSeed_ne_zero (hIn : Word32) : firstSeed hIn ≠ 0#32 := by
  unfold firstSeed
  split_ifs with h
  · decide
  · exact h

/-- The multiplier is odd, so it has an inverse modulo `2^32`. -/
theorem isUnit_seedMul32 : IsUnit (69069#32) := .of_mul_eq_one 2783094533#32 (by decide)

/-- Multiplying by a power of the odd multiplier loses no seed (spec/41_seed.md R111 (b)). -/
theorem seedWord32_ne_zero {seed : Word32} (h : seed ≠ 0#32) (k : Nat) : seedWord32 seed k ≠ 0#32 :=
  mt (isUnit_seedMul32.pow k).mul_right_eq_zero.1 h

/-- The degenerate seed is a fixed point of the recurrence (spec/41_seed.md R111 (b)). -/
theorem seedWord32_degenerate (k : Nat) : seedWord32 0x80000000#32 k = 0x80000000#32 := by
  rw [← seedLcg_iterate_e32]
  exact Function.iterate_fixed (by decide) k

/-- Settles O23: word `k` is `seedWord32` of the first seed, which is not zero; the degenerate handle is its own seed. -/
theorem seededArrayHasNoZeroWord : Obligations.SeededArrayHasNoZeroWord := by
  refine fun s => ⟨_, exec_seed32_eq s, fun k hk => ?_⟩
  rw [(seeded32_seededWith (handleIn32 s.hIn) s.e32).read k hk]
  refine ⟨seedWord32_ne_zero (firstSeed_ne_zero _) k, fun hdegenerate => ?_⟩
  have hseed : firstSeed (handleIn32 s.hIn) = 0x80000000#32 := by rw [handleIn32, hdegenerate]; decide
  rw [hseed, seedWord32_degenerate]

end Sys2Proof.Machine
end

section
/-! The bit-combine, the multiply and the new word as maps of words over GF(2) (spec/42_regen.md R126, R127, R134). -/

namespace Sys2Proof.Machine

variable {w cw : Nat}

/-! ### The masks -/

theorem getLsbD_lmask (p : EngineParams w) {i : Nat} (hi : i < w) : p.lmask.getLsbD i = decide (i < p.r) := by
  rw [EngineParams.lmask, BitVec.getLsbD_ofNat, Nat.testBit_two_pow_sub_one, decide_eq_true hi, Bool.true_and]

/-- `2^W - 2^R` is `2^R` times a number of `W - R` ones. -/
theorem getLsbD_umask (p : EngineParams w) (hr : p.r ≤ w) {i : Nat} (hi : i < w) :
    p.umask.getLsbD i = decide (p.r ≤ i) := by
  have hfactor : 2 ^ w - 2 ^ p.r = 2 ^ p.r * (2 ^ (w - p.r) - 1) := by
    rw [Nat.mul_sub_one, ← Nat.pow_add, Nat.add_sub_cancel' hr]
  rw [EngineParams.umask, BitVec.getLsbD_ofNat, hfactor, Nat.testBit_two_pow_mul, Nat.testBit_two_pow_sub_one]
  by_cases h : p.r ≤ i
  · simp [h, hi, show i - p.r < w - p.r by omega]
  · simp [h]

/-- The bits of `COMBINE_W` (spec/42_regen.md R126). -/
theorem combine_getLsbD {p : EngineParams w} (hp : p.wf) (a b : BitVec w) {i : Nat} (hi : i < w) :
    (combine p a b).getLsbD i = if i < p.r then b.getLsbD i else a.getLsbD i := by
  have ⟨_, hr, _⟩ := hp
  rw [combine, BitVec.getLsbD_or, BitVec.getLsbD_and, BitVec.getLsbD_and, getLsbD_umask p hr.le hi, getLsbD_lmask p hi]
  split_ifs with h
  · simp [h]
  · simp [h, Nat.le_of_not_lt h]

/-! ### Linearity -/

theorem combine_xor {p : EngineParams w} (hp : p.wf) (a a' b b' : BitVec w) :
    combine p (a ^^^ a') (b ^^^ b') = combine p a b ^^^ combine p a' b' := by
  apply BitVec.eq_of_getLsbD_eq
  intro i hi
  simp only [BitVec.getLsbD_xor, combine_getLsbD hp _ _ hi]
  split_ifs <;> rfl

theorem magTable_xor {p : EngineParams w} (h0 : p.mag0 = 0#w) (b b' : Bool) :
    magTable p (b ^^ b') = magTable p b ^^^ magTable p b' := by
  cases b <;> cases b' <;> simp [magTable, h0]

theorem feed_xor {p : EngineParams w} (h0 : p.mag0 = 0#w) (c c' : BitVec w) :
    feed p (c ^^^ c') = feed p c ^^^ feed p c' := by
  simp only [feed, BitVec.ushiftRight_xor_distrib, BitVec.getLsbD_xor, magTable_xor h0]
  ac_rfl

/-- Exclusive-ORing in a word for every lag is linear in the word it starts from and in the words together. -/
theorem foldl_xor_xor (lags : List Nat) {f g h : Nat → BitVec w} (hf : ∀ l, f l = g l ^^^ h l) (x y : BitVec w) :
    lags.foldl (fun acc l => acc ^^^ f l) (x ^^^ y)
      = lags.foldl (fun acc l => acc ^^^ g l) x ^^^ lags.foldl (fun acc l => acc ^^^ h l) y := by
  induction lags generalizing x y with
  | nil => rfl
  | cons l lags ih =>
    rw [List.foldl_cons, List.foldl_cons, List.foldl_cons, ← ih, hf]
    congr 1
    ac_rfl

/-- The words of `m` below `n` are those of `a` and `b`, exclusive-ORed. -/
def XorWords (n : Nat) (m a b : Mem w) : Prop := ∀ k, k < n → memRead m k = memRead a k ^^^ memRead b k

theorem XorWords.memWrite {n : Nat} {m a b : Mem w} (hm : XorWords n m a b) (k : Nat) (x y : BitVec w) :
    XorWords n (memWrite m k (x ^^^ y)) (memWrite a k x) (memWrite b k y) := by
  intro j hj
  simp only [memRead_memWrite]
  split_ifs
  · rfl
  · exact hm j hj

theorem regenWord_xor {p : EngineParams w} (hp : p.wf) (h0 : p.mag0 = 0#w) {m a b : Mem w} (hm : XorWords p.n m a b)
    {k : Nat} (hk : k < p.n) : regenWord p m k = regenWord p a k ^^^ regenWord p b k := by
  have hread (j : Nat) : memRead m (j % p.n) = memRead a (j % p.n) ^^^ memRead b (j % p.n) :=
    hm _ (Nat.mod_lt j (Nat.zero_lt_of_lt hk))
  simp only [regenWord, regenYc, hm k hk, hread (k + 1), combine_xor hp, feed_xor h0]
  exact foldl_xor_xor p.lags (fun lag => hread (k + lag)) _ _

theorem foldl_regenWord_xor {p : EngineParams w} (hp : p.wf) (h0 : p.mag0 = 0#w) (ks : List Nat)
    (hks : ∀ k ∈ ks, k < p.n) {m a b : Mem w} (hm : XorWords p.n m a b) :
    XorWords p.n (ks.foldl (fun m k => memWrite m k (regenWord p m k)) m)
      (ks.foldl (fun m k => memWrite m k (regenWord p m k)) a)
      (ks.foldl (fun m k => memWrite m k (regenWord p m k)) b) := by
  induction ks generalizing m a b with
  | nil => exact hm
  | cons k ks ih =>
    simp only [List.foldl_cons, regenWord_xor hp h0 hm (hks k List.mem_cons_self)]
    exact ih (fun j hj => hks j (List.mem_cons_of_mem k hj)) (hm.memWrite k _ _)

/-- `REGEN_W` takes the exclusive OR of two arrays to that of their regenerations (spec/42_regen.md R134). -/
theorem regen_xor {p : EngineParams w} (hp : p.wf) (h0 : p.mag0 = 0#w) {c a b : Engine w cw}
    (hc : XorWords p.n c.mt a.mt b.mt) : XorWords p.n (regen p c).mt (regen p a).mt (regen p b).mt := by
  rw [regen_mt, regen_mt, regen_mt]
  exact foldl_regenWord_xor hp h0 _ (fun k hk => List.mem_range.1 hk) hc

end Sys2Proof.Machine
end

section
/-! The pass by index ranges (spec/42_regen.md R128, R129) is the pass of the modulo form (R131): a loop may be cut into
loops over parts of its range, and on each part the body is the new word of the step. -/

namespace Sys2Proof.Machine

variable {w cw : Nat}

/-! ### Loops over a range -/

section
variable {a b c : Nat} {f g : Mem w → Nat → BitVec w}

theorem forRange_append (hab : a ≤ b) (hbc : b ≤ c) (f : Mem w → Nat → BitVec w) (m : Mem w) :
    forRange b c f (forRange a b f m) = forRange a c f m := by
  have hcut := List.range'_append_1 (s := a) (m := b - a) (n := c - b)
  rw [show a + (b - a) = b by omega, show b - a + (c - b) = c - a by omega] at hcut
  rw [forRange, forRange, forRange, ← hcut, List.foldl_append]

theorem forRange_succ (hab : a ≤ b) (f : Mem w → Nat → BitVec w) (m : Mem w) :
    forRange a (b + 1) f m = memWrite (forRange a b f m) b (f (forRange a b f m) b) := by
  have hlast : List.range' b (b + 1 - b) = [b] := by rw [Nat.add_sub_cancel_left]; rfl
  rw [← forRange_append hab (Nat.le_add_right b 1), forRange, hlast]
  rfl

theorem forRange_congr (h : ∀ m k, a ≤ k → k < b → f m k = g m k) (m : Mem w) :
    forRange a b f m = forRange a b g m := by
  refine List.foldl_ext _ _ _ fun m k hk => ?_
  rw [List.mem_range'_1] at hk
  rw [h m k hk.1 (by omega)]

end

/-- The pass of the modulo form as a loop over its whole range, its last step apart. -/
theorem regen_mt_eq_forRange (p : EngineParams w) (e : Engine w cw) (hn : 0 < p.n) :
    (regen p e).mt = memWrite (forRange 0 (p.n - 1) (regenWord p) e.mt) (p.n - 1)
      (regenWord p (forRange 0 (p.n - 1) (regenWord p) e.mt) (p.n - 1)) := by
  rw [← forRange_succ (Nat.zero_le _), Nat.sub_add_cancel hn, regen_mt, List.range_eq_range', forRange, Nat.sub_zero]

/-! ### The word of a step without modulo -/

/-- An index that has wrapped (spec/42_regen.md R131). -/
theorem mod_of_wrapped {a n : Nat} (h : n ≤ a) (h' : a < 2 * n) : a % n = a - n := by
  rw [mod_of_lt_two_mul h', if_neg (by omega)]

/-- The index of a word ahead by `d` of the last one. -/
theorem last_add_mod {n d : Nat} (h : 0 < d) (h' : d < n) : (n - 1 + d) % n = d - 1 := by
  rw [mod_of_wrapped (by omega) (by omega)]
  omega

section
variable {p : EngineParams w} {k nxt : Nat}

/-- The new word of step `k` with one lag, from the reduced indices. -/
theorem rangeWord_one_lag {lag i : Nat} (hlags : p.lags = [lag]) (m : Mem w) (hnxt : (k + 1) % p.n = nxt)
    (hi : (k + lag) % p.n = i) : memRead m i ^^^ rangeFeed p m k nxt = regenWord p m k := by
  rw [regenWord, hlags, regenYc, hnxt, ← hi, BitVec.xor_comm]
  rfl

/-- The new word of step `k` with three lags, from the reduced indices. -/
theorem rangeWord_three_lags {lag0 lag1 lag2 i0 i1 i2 : Nat} (hlags : p.lags = [lag0, lag1, lag2]) (m : Mem w)
    (hnxt : (k + 1) % p.n = nxt) (h0 : (k + lag0) % p.n = i0) (h1 : (k + lag1) % p.n = i1)
    (h2 : (k + lag2) % p.n = i2) :
    rangeFeed p m k nxt ^^^ memRead m i0 ^^^ memRead m i1 ^^^ memRead m i2 = regenWord p m k := by
  rw [regenWord, hlags, regenYc, hnxt, ← h0, ← h1, ← h2]
  rfl

end

/-! ### The two forms -/

theorem regen_mt_eq_regenRanges32 {p : EngineParams w} {lag : Nat} (hlags : p.lags = [lag]) (h : 0 < lag)
    (h' : lag < p.n) (e : Engine w cw) : (regen p e).mt = regenRanges32 p lag e.mt := by
  have hplain (m : Mem w) (k : Nat) (_ : 0 ≤ k) (hk : k < p.n - lag) :
      memRead m (k + lag) ^^^ rangeFeed p m k (k + 1) = regenWord p m k :=
    rangeWord_one_lag hlags m (Nat.mod_eq_of_lt (by omega)) (Nat.mod_eq_of_lt (by omega))
  have hwrapped (m : Mem w) (k : Nat) (hk : p.n - lag ≤ k) (hk' : k < p.n - 1) :
      memRead m (k + lag - p.n) ^^^ rangeFeed p m k (k + 1) = regenWord p m k :=
    rangeWord_one_lag hlags m (Nat.mod_eq_of_lt (by omega)) (mod_of_wrapped (by omega) (by omega))
  have hlast (m : Mem w) : memRead m (lag - 1) ^^^ rangeFeed p m (p.n - 1) 0 = regenWord p m (p.n - 1) :=
    rangeWord_one_lag hlags m (last_add_mod Nat.one_pos (by omega)) (last_add_mod h h')
  rw [regen_mt_eq_forRange p e (by omega), regenRanges32, forRange_congr hplain, forRange_congr hwrapped,
    forRange_append (Nat.zero_le _) (by omega), hlast]

theorem regen_mt_eq_regenRanges64 {p : EngineParams w} {lag0 lag1 lag2 : Nat} (hlags : p.lags = [lag0, lag1, lag2])
    (h : 0 < lag0) (h01 : lag0 < lag1) (h12 : lag1 < lag2) (h' : lag2 < p.n) (e : Engine w cw) :
    (regen p e).mt = regenRanges64 p lag0 lag1 lag2 e.mt := by
  have hA (m : Mem w) (k : Nat) (_ : 0 ≤ k) (hk : k < p.n - lag2) :
      rangeFeed p m k (k + 1) ^^^ memRead m (k + lag0) ^^^ memRead m (k + lag1) ^^^ memRead m (k + lag2)
        = regenWord p m k :=
    rangeWord_three_lags hlags m (Nat.mod_eq_of_lt (by omega)) (Nat.mod_eq_of_lt (by omega))
      (Nat.mod_eq_of_lt (by omega)) (Nat.mod_eq_of_lt (by omega))
  have hB (m : Mem w) (k : Nat) (hk : p.n - lag2 ≤ k) (hk' : k < p.n - lag1) :
      rangeFeed p m k (k + 1) ^^^ memRead m (k + lag0) ^^^ memRead m (k + lag1) ^^^ memRead m (k + lag2 - p.n)
        = regenWord p m k :=
    rangeWord_three_lags hlags m (Nat.mod_eq_of_lt (by omega)) (Nat.mod_eq_of_lt (by omega))
      (Nat.mod_eq_of_lt (by omega)) (mod_of_wrapped (by omega) (by omega))
  have hC (m : Mem w) (k : Nat) (hk : p.n - lag1 ≤ k) (hk' : k < p.n - lag0) :
      rangeFeed p m k (k + 1) ^^^ memRead m (k + lag0) ^^^ memRead m (k + lag1 - p.n) ^^^ memRead m (k + lag2 - p.n)
        = regenWord p m k :=
    rangeWord_three_lags hlags m (Nat.mod_eq_of_lt (by omega)) (Nat.mod_eq_of_lt (by omega))
      (mod_of_wrapped (by omega) (by omega)) (mod_of_wrapped (by omega) (by omega))
  have hD (m : Mem w) (k : Nat) (hk : p.n - lag0 ≤ k) (hk' : k < p.n - 1) :
      rangeFeed p m k (k + 1) ^^^ memRead m (k + lag0 - p.n) ^^^ memRead m (k + lag1 - p.n) ^^^
        memRead m (k + lag2 - p.n) = regenWord p m k :=
    rangeWord_three_lags hlags m (Nat.mod_eq_of_lt (by omega)) (mod_of_wrapped (by omega) (by omega))
      (mod_of_wrapped (by omega) (by omega)) (mod_of_wrapped (by omega) (by omega))
  have hlast (m : Mem w) : rangeFeed p m (p.n - 1) 0 ^^^ memRead m (lag0 - 1) ^^^ memRead m (lag1 - 1) ^^^
      memRead m (lag2 - 1) = regenWord p m (p.n - 1) :=
    rangeWord_three_lags hlags m (last_add_mod Nat.one_pos (by omega)) (last_add_mod h (by omega))
      (last_add_mod (by omega) (by omega)) (last_add_mod (by omega) h')
  rw [regen_mt_eq_forRange p e (by omega), regenRanges64, forRange_congr hA, forRange_congr hB, forRange_congr hC,
    forRange_congr hD, forRange_append (Nat.zero_le _) (by omega), forRange_append (Nat.zero_le _) (by omega),
    forRange_append (Nat.zero_le _) (by omega), hlast]

/-- Settles O27: on each index range the body of the loop is the new word of the modulo form, and the ranges follow one
another; the index bounds follow from `0 < L < N`. -/
theorem rangesAgreeWithModuloForm : Obligations.RangesAgreeWithModuloForm := by
  constructor
  · intro w cw p lag e ⟨_, _, hlag, _⟩ hlags
    obtain ⟨h, h'⟩ := hlag lag (by simp [hlags])
    exact ⟨regen_mt_eq_regenRanges32 hlags h h' e, by omega, by omega, by omega⟩
  · intro w cw p lag0 lag1 lag2 e ⟨_, _, hlag, hsorted, _⟩ hlags
    obtain ⟨h, -⟩ := hlag lag0 (by simp [hlags])
    obtain ⟨-, h'⟩ := hlag lag2 (by simp [hlags])
    obtain ⟨⟨h01, -⟩, h12⟩ : (lag0 < lag1 ∧ lag0 < lag2) ∧ lag1 < lag2 := by simpa [hlags] using hsorted
    exact ⟨regen_mt_eq_regenRanges64 hlags h h01 h12 h' e, by omega, by omega, by omega, by omega, by omega, by omega,
      by omega⟩

end Sys2Proof.Machine
end

section
/-! The batches as one sequence (spec/42_regen.md R134). -/

namespace Sys2Proof.Machine

variable {w cw : Nat}

/-- Word `m` of the sequence: word `m mod N` of batch `m / N`. -/
def batchWord (p : EngineParams w) (e : Engine w cw) (m : Nat) : BitVec w :=
  memRead (batch p (m / p.n) e).mt (m % p.n)

theorem batchWord_add_mul (p : EngineParams w) (e : Engine w cw) {i : Nat} (hi : i < p.n) (q : Nat) :
    batchWord p e (i + p.n * q) = memRead (batch p q e).mt i := by
  have hn : 0 < p.n := by omega
  rw [batchWord, Nat.add_mul_div_left i q hn, Nat.div_eq_of_lt hi, Nat.zero_add, Nat.add_mul_mod_self_left,
    Nat.mod_eq_of_lt hi]

/-- The word at a distance below `N`: of the same batch, or of the next one where the index has wrapped. -/
theorem batchWord_ahead (p : EngineParams w) (e : Engine w cw) {i d : Nat} (hi : i < p.n) (hd : d < p.n) (q : Nat) :
    batchWord p e (i + p.n * q + d)
      = if i + d < p.n then memRead (batch p q e).mt (i + d) else memRead (batch p (q + 1) e).mt (i + d - p.n) := by
  split_ifs with h
  · rw [← batchWord_add_mul p e h q, Nat.add_right_comm]
  · rw [← batchWord_add_mul p e (show i + d - p.n < p.n by omega) (q + 1), Nat.mul_succ]
    congr 1
    omega

/-- The recurrence of the sequence (spec/42_regen.md R134): the pass from batch `q` to the next one reads, at every
distance, the sequence. -/
theorem batchWord_recurrence {p : EngineParams w} (hp : p.wf) (hlags : p.lags ≠ []) (e : Engine w cw) (m : Nat) :
    batchWord p e (m + p.n) = p.lags.foldl (fun acc lag => acc ^^^ batchWord p e (m + lag))
      (feed p (combine p (batchWord p e m) (batchWord p e (m + 1)))) := by
  have hn := one_lt_n hp hlags
  have ⟨_, _, hlag, _⟩ := hp
  obtain ⟨i, q, hi, rfl⟩ : ∃ i q, i < p.n ∧ i + p.n * q = m :=
    ⟨m % p.n, m / p.n, Nat.mod_lt m (by omega), Nat.mod_add_div m p.n⟩
  have hpass := regen_inPlacePass hp hlags (batch p q e) i hi
  rw [← batch_succ] at hpass
  rw [Nat.add_assoc, ← Nat.mul_succ, batchWord_add_mul p e hi, batchWord_add_mul p e hi, batchWord_ahead p e hi hn,
    hpass]
  exact List.foldl_ext _ _ _ fun acc lag hmem => congrArg (acc ^^^ ·) (batchWord_ahead p e hi (hlag lag hmem).2 q).symm

/-- Settles O28: the statement's sequence is `batchWord`. -/
theorem batchesFormOneRecurrence : Obligations.BatchesFormOneRecurrence :=
  fun _ _ _ e hp hlags => batchWord_recurrence hp hlags e

end Sys2Proof.Machine
end

section
/-! The obligations on regeneration (spec/42_regen.md R126 to R134). -/

namespace Sys2Proof.Machine

/-- `REGEN32`: everything the transition does. -/
theorem exec_regen32_eq (s : State) : exec .regen32 s = .next { s with e32 := { s.e32 with
    mt := (regen Config.e32 s.e32).mt
    idx := 0#10
    regenCount := s.e32.regenCount + 1#32
    k := 623#10
    yc := combine Config.e32 (memRead s.e32.mt 623) (memRead (regen Config.e32 s.e32).mt 0) } } :=
  congrArg Host.Outcome.next (regen32_eq Config.params s (by decide))

/-- `REGEN64`: everything the transition does. -/
theorem exec_regen64_eq (s : State) : exec .regen64 s = .next { s with e64 := { s.e64 with
    mt := (regen Config.e64 s.e64).mt
    idx := 0#9
    regenCount := s.e64.regenCount + 1#32
    k := 311#9
    yc := combine Config.e64 (memRead s.e64.mt 311) (memRead (regen Config.e64 s.e64).mt 0) } } :=
  congrArg Host.Outcome.next (regen64_eq Config.params s (by decide))

/-- Settles O24: the transition, whose array is that of the in-place pass. -/
theorem regen32Result : Obligations.Regen32Result := fun s =>
  ⟨_, exec_regen32_eq s, regen_inPlacePass params_e32_wf (List.cons_ne_nil _ _) s.e32,
    fun _ => regen_lookup_outside Config.e32 s.e32⟩

/-- Settles O25: the transition, whose array is that of the in-place pass. -/
theorem regen64Result : Obligations.Regen64Result := fun s =>
  ⟨_, exec_regen64_eq s, regen_inPlacePass params_e64_wf (List.cons_ne_nil _ _) s.e64,
    fun _ => regen_lookup_outside Config.e64 s.e64⟩

/-- Settles O26, by what step `k` of the pass reads at each distance. -/
theorem regenerationIsInPlace : Obligations.RegenerationIsInPlace :=
  fun _ _ _ e hp hlags => regen_inPlacePass hp hlags e

/-- Settles O29: every step of the pass is linear. The all-zero array is the exclusive OR of itself with itself, so each
word of its regeneration is some `x ^^^ x`. -/
theorem regenerationIsLinear : Obligations.RegenerationIsLinear := by
  refine fun w cw p hp h0 => ⟨fun a b c hc => regen_xor hp h0 hc, fun a ha k hk => ?_⟩
  have hself : XorWords p.n a.mt a.mt a.mt := fun j hj => by rw [ha j hj, BitVec.xor_self]
  rw [regen_xor hp h0 hself k hk, BitVec.xor_self]

/-- Settles O30, by the bits of the two masks. -/
theorem combineSplitsAtR : Obligations.CombineSplitsAtR :=
  ⟨fun _ _ a b hp _ hi => combine_getLsbD hp a b hi, rfl, rfl⟩

end Sys2Proof.Machine
end

section
/-! Tempering (spec/43_emit.md R146, R147, R154): each of its four steps is `v ↦ v ^ g v`, where bit `i` of `g v` depends on
the bits of `v` on one side of `i` only, so the bits of `v` can be found one after the other from that side. -/

namespace Sys2Proof.Machine

variable {w : Nat}

/-- Bit `i` of `g v` depends only on the bits of `v` of a smaller rank: the matrix of `g` is strictly triangular in the order
of the ranks. -/
def DependsOnLowerRanks (rank : Nat → Nat) (g : BitVec w → BitVec w) : Prop :=
  ∀ (x y : BitVec w) (i : Nat), (∀ j, rank j < rank i → x.getLsbD j = y.getLsbD j) → (g x).getLsbD i = (g y).getLsbD i

/-- With ones added on its diagonal a strictly triangular map is invertible. -/
theorem DependsOnLowerRanks.bijective_xor {rank : Nat → Nat} {g : BitVec w → BitVec w} (hg : DependsOnLowerRanks rank g) :
    Function.Bijective fun x => x ^^^ g x := by
  rw [← Finite.injective_iff_bijective]
  intro x y hxy
  have hbit (i : Nat) : x.getLsbD i = y.getLsbD i := by
    induction hr : rank i using Nat.strong_induction_on generalizing i with
    | h r ih =>
      have hlow := hg x y i fun j hj => ih (rank j) (hr ▸ hj) j rfl
      have hi := congrArg (·.getLsbD i) hxy
      simpa only [BitVec.getLsbD_xor, hlow, Bool.xor_right_inj, Bool.xor_left_inj] using hi
  exact BitVec.eq_of_getLsbD_eq fun i _ => hbit i

/-- A right shift reads the higher bits, which have the smaller rank `w - i`. -/
theorem dependsOnLowerRanks_ushiftRight {n : Nat} (hn : 1 ≤ n) :
    DependsOnLowerRanks (w - ·) fun x : BitVec w => x >>> n := by
  intro x y i hlow
  simp only [BitVec.getLsbD_ushiftRight]
  rcases Nat.lt_or_ge (n + i) w with hlt | hge
  · exact hlow (n + i) (show w - (n + i) < w - i by omega)
  · rw [BitVec.getLsbD_of_ge x _ hge, BitVec.getLsbD_of_ge y _ hge]

/-- A left shift reads the lower bits; the mask drops some of them. -/
theorem dependsOnLowerRanks_shiftLeft_and {n : Nat} (hn : 1 ≤ n) (mask : BitVec w) :
    DependsOnLowerRanks id fun x : BitVec w => (x <<< n) &&& mask := by
  intro x y i hlow
  simp only [BitVec.getLsbD_and, BitVec.getLsbD_shiftLeft]
  rcases Nat.lt_or_ge i n with hlt | hge
  · simp only [hlt, decide_true, Bool.not_true, Bool.and_false, Bool.false_and]
  · rw [hlow (i - n) (show i - n < i by omega)]

/-- Tempering is its four steps, one after another. -/
theorem temper_eq_comp (p : EngineParams w) : temper p =
    (fun x : BitVec w => x ^^^ (x >>> p.tl)) ∘ (fun x : BitVec w => x ^^^ ((x <<< p.tt) &&& p.tc)) ∘
      (fun x : BitVec w => x ^^^ ((x <<< p.ts) &&& p.tb)) ∘ fun x : BitVec w => x ^^^ (x >>> p.tu) := rfl

theorem temper_bijective {p : EngineParams w} (hp : p.wf) : Function.Bijective (temper p) := by
  obtain ⟨-, -, -, -, ⟨htu, -⟩, ⟨hts, -⟩, ⟨htt, -⟩, ⟨htl, -⟩, -⟩ := hp
  have hright {n : Nat} (hn : 1 ≤ n) := (dependsOnLowerRanks_ushiftRight (w := w) hn).bijective_xor
  have hleft {n : Nat} (hn : 1 ≤ n) (mask : BitVec w) := (dependsOnLowerRanks_shiftLeft_and hn mask).bijective_xor
  rw [temper_eq_comp]
  exact (hright htl).comp ((hleft htt p.tc).comp ((hleft hts p.tb).comp (hright htu)))

@[simp] theorem temper_zero (p : EngineParams w) : temper p 0#w = 0#w := by simp [temper]

/-- Settles O35: the composition of four invertible steps. -/
theorem temperingIsBijective : Obligations.TemperingIsBijective := fun _ p hp => ⟨temper_bijective hp, temper_zero p⟩

end Sys2Proof.Machine
end

section
/-! `f64OfRat` as a function of the rational number (spec/00_scope.md R15): equal quotients round alike, a number of at most 53
bits is its own rounding, rounding is monotone, and its relative error is at most `2^-53`. -/

namespace Sys2Proof.Machine

/-! ### Numbers -/

theorem F64.value_nonneg (x : F64) : 0 ≤ x.value := by rw [F64.value]; positivity

theorem F64.value_pos {x : F64} (h : 0 < x.mant) : 0 < x.value := by rw [F64.value]; positivity

/-! ### A function of the quotient -/

/-- The exponent is Mathlib's binary logarithm of the quotient. -/
theorem ratLog2_eq_log {a b : Nat} (ha : 0 < a) (hb : 0 < b) : ratLog2 a b = Int.log 2 ((a : Rat) / b) := by
  obtain ⟨hlo, hhi⟩ := ratLog2_bounds ha hb
  have hpos : 0 < (a : Rat) / b := by positivity
  have hle := (Int.zpow_le_iff_le_log one_lt_two hpos).1 (mod_cast hlo)
  have hlt := (Int.lt_zpow_iff_log_lt one_lt_two hpos).1 (mod_cast hhi)
  omega

/-- A number has at most one nearest integer, the even one where two are as near. -/
theorem nearestEven_unique {x : Rat} {m m' : Nat} (h : |x - m| < 1 / 2 ∨ |x - m| = 1 / 2 ∧ m % 2 = 0)
    (h' : |x - m'| < 1 / 2 ∨ |x - m'| = 1 / 2 ∧ m' % 2 = 0) : m = m' := by
  by_contra hne
  have hle : |x - m| ≤ 1 / 2 := h.elim le_of_lt fun h => h.1.le
  have hle' : |x - m'| ≤ 1 / 2 := h'.elim le_of_lt fun h => h.1.le
  obtain ⟨-, heven⟩ := h.resolve_left (half_le_abs_sub_natCast hle' hne).not_gt
  obtain ⟨-, heven'⟩ := h'.resolve_left (half_le_abs_sub_natCast hle (Ne.symm hne)).not_gt
  -- both are even, and they are at most one apart
  have hclose : |(m : Rat) - m'| ≤ 1 := by
    have htri := abs_sub_le (m : Rat) x m'
    rw [abs_sub_comm (m : Rat) x] at htri
    linarith
  have hclose' : |(m : Int) - m'| ≤ 1 := mod_cast hclose
  rw [abs_le] at hclose'
  omega

theorem f64OfRat_zero (b : Nat) : f64OfRat 0 b = { mant := 0, exp := 0 } := rfl

@[simp] theorem f64OfRat_zero_value (b : Nat) : (f64OfRat 0 b).value = 0 := by simp [f64OfRat_zero, F64.value]

theorem natCast_div_eq_zero_iff {a b : Nat} (hb : 0 < b) : (a : Rat) / b = 0 ↔ a = 0 := by simp [hb.ne']

theorem f64OfRat_congr {a b a' b' : Nat} (hb : 0 < b) (hb' : 0 < b') (h : (a : Rat) / b = a' / b') :
    f64OfRat a b = f64OfRat a' b' := by
  have hzero : a = 0 ↔ a' = 0 := by rw [← natCast_div_eq_zero_iff hb, h, natCast_div_eq_zero_iff hb']
  rcases Nat.eq_zero_or_pos a with ha | ha
  · rw [ha, hzero.1 ha, f64OfRat_zero, f64OfRat_zero]
  · have ha' : 0 < a' := by omega
    have hlog : ratLog2 a b = ratLog2 a' b' := by rw [ratLog2_eq_log ha hb, ratLog2_eq_log ha' hb', h]
    have hmant : roundedMant a b = roundedMant a' b' := by
      have hscaled : scaledQuotient a b = scaledQuotient a' b' := by rw [scaledQuotient, scaledQuotient, h, hlog]
      exact nearestEven_unique (roundedMant_half_unit a hb) (hscaled ▸ roundedMant_half_unit a' hb')
    rw [f64OfRat_of_pos ha, f64OfRat_of_pos ha', hlog, hmant]

/-! ### The nearest number -/

theorem f64OfRat_mant_lt (a : Nat) {b : Nat} (hb : 0 < b) : (f64OfRat a b).mant < 2 ^ 53 := by
  rcases Nat.eq_zero_or_pos a with rfl | ha
  · norm_num [f64OfRat_zero]
  · exact (f64OfRat_mant_bounds ha hb).2

theorem f64OfRat_nearest (a : Nat) {b : Nat} (hb : 0 < b) {u : F64} (hu : u.mant < 2 ^ 53) :
    |(a : Rat) / b - (f64OfRat a b).value| ≤ |(a : Rat) / b - u.value| := by
  rcases Nat.eq_zero_or_pos a with rfl | ha
  · simp
  · obtain ⟨-, -, hnearest⟩ := roundingIsNearestEven a b ha hb
    exact (hnearest u hu).1

/-- A number of at most 53 bits is its own rounding. -/
theorem f64OfRat_value_of_eq {a b : Nat} (hb : 0 < b) {u : F64} (hu : u.mant < 2 ^ 53) (h : (a : Rat) / b = u.value) :
    (f64OfRat a b).value = u.value := by
  have hnear := f64OfRat_nearest a hb hu
  rw [h, sub_self, abs_zero] at hnear
  exact (sub_eq_zero.1 (abs_nonpos_iff.1 hnear)).symm

/-- If the roundings came in the wrong order, both quotients would be the midpoint between them, so they would be equal. -/
theorem f64OfRat_value_mono {a b a' b' : Nat} (hb : 0 < b) (hb' : 0 < b') (h : (a : Rat) / b ≤ a' / b') :
    (f64OfRat a b).value ≤ (f64OfRat a' b').value := by
  by_contra! hlt
  have hnear := f64OfRat_nearest a hb (f64OfRat_mant_lt a' hb')
  have hnear' := f64OfRat_nearest a' hb' (f64OfRat_mant_lt a hb)
  rw [← sq_le_sq] at hnear hnear'
  have habove : (f64OfRat a b).value + (f64OfRat a' b').value ≤ 2 * ((a : Rat) / b) := by nlinarith
  have hbelow : 2 * ((a' : Rat) / b') ≤ (f64OfRat a b).value + (f64OfRat a' b').value := by nlinarith
  have heq : (a : Rat) / b = a' / b' := by linarith
  rw [f64OfRat_congr hb hb' heq] at hlt
  exact lt_irrefl _ hlt

theorem f64OfRat_relative_error (a : Nat) {b : Nat} (hb : 0 < b) :
    |(a : Rat) / b - (f64OfRat a b).value| ≤ a / b / 2 ^ 53 := by
  rcases Nat.eq_zero_or_pos a with rfl | ha
  · simp
  obtain ⟨hlo, -⟩ := ratLog2_bounds ha hb
  have hhalf := abs_scaledQuotient_sub_roundedMant_le a hb
  have hunit : (1 / 2 : Rat) * 2 ^ (ratLog2 a b - 52) = 2 ^ ratLog2 a b / 2 ^ 53 := by
    rw [zpow_sub₀ two_ne_zero]; norm_num; ring
  rw [f64OfRat_value ha, abs_div_sub_mul_unit]
  calc |scaledQuotient a b - roundedMant a b| * 2 ^ (ratLog2 a b - 52) ≤ 1 / 2 * 2 ^ (ratLog2 a b - 52) :=
        mul_le_mul_of_nonneg_right hhalf (by positivity)
    _ = 2 ^ ratLog2 a b / 2 ^ 53 := hunit
    _ ≤ a / b / 2 ^ 53 := div_le_div_of_nonneg_right hlo (by positivity)

/-- Fractions with one denominator round strictly in order while their numerators are small against `2^53`. -/
theorem f64OfRat_value_strictMono {a a' b : Nat} (hb : 0 < b) (h : a < a') (hsum : a + a' < 2 ^ 53) :
    (f64OfRat a b).value < (f64OfRat a' b).value := by
  obtain ⟨hlo, -⟩ := abs_le.1 (f64OfRat_relative_error a hb)
  obtain ⟨-, hhi⟩ := abs_le.1 (f64OfRat_relative_error a' hb)
  have hgap : ((a : Rat) + a') / 2 ^ 53 < a' - a := by
    have hsum' : ((a : Rat) + a') / 2 ^ 53 < 1 := (div_lt_one (by positivity)).2 (mod_cast hsum)
    have hstep : (a : Rat) + 1 ≤ a' := mod_cast h
    linarith
  have hgap' : (((a : Rat) + a') / 2 ^ 53) / b < (a' - a) / b := div_lt_div_of_pos_right hgap (mod_cast hb)
  have hsplit : (((a : Rat) + a') / 2 ^ 53) / b = a / b / 2 ^ 53 + a' / b / 2 ^ 53 := by ring
  rw [hsplit, sub_div] at hgap'
  linarith

end Sys2Proof.Machine
end

section
/-! The conversion `CVT_W` (spec/43_emit.md R150 to R153): what it rounds for each width, its order, its ends, and the bit
pattern of its result (spec/00_scope.md R15). -/

namespace Sys2Proof.Machine

/-! ### Integers and division -/

/-- Below `2^53` the conversion of an integer is exact. -/
theorem f64OfNat_value_of_lt {n : Nat} (hn : n < 2 ^ 53) : (f64OfNat n).value = n := by
  have hself : F64.value { mant := n, exp := 0 } = n := by simp [F64.value]
  exact (f64OfRat_value_of_eq one_pos hn (by rw [hself, Nat.cast_one, div_one])).trans hself

theorem f64OfNat_value_mono {m n : Nat} (h : m ≤ n) : (f64OfNat m).value ≤ (f64OfNat n).value :=
  f64OfRat_value_mono one_pos one_pos (div_le_div_of_nonneg_right (mod_cast h) (by simp))

theorem f64OfNat_mant_pos {n : Nat} (hn : 0 < n) : 0 < (f64OfNat n).mant :=
  lt_of_lt_of_le (by norm_num) (f64OfRat_mant_bounds hn one_pos).1

/-- The fraction that `f64Div` rounds is the quotient of the two numbers. -/
theorem f64Div_fraction (x y : F64) :
    ((x.mant * 2 ^ (x.exp - y.exp).toNat : Nat) : Rat) / ((y.mant * 2 ^ (y.exp - x.exp).toNat : Nat) : Rat) =
      x.value / y.value := by
  rw [← neg_sub x.exp y.exp, natCast_div_scaled, F64.value, F64.value, mul_div_mul_comm, zpow_sub₀ two_ne_zero]

theorem f64Div_eq_f64OfRat {x y : F64} (hy : 0 < y.mant) {a b : Nat} (hb : 0 < b)
    (h : x.value / y.value = (a : Rat) / b) : f64Div x y = f64OfRat a b :=
  f64OfRat_congr (by positivity) hb ((f64Div_fraction x y).trans h)

/-- A quotient of at most 53 bits is exact. -/
theorem f64Div_value_of_eq {x y u : F64} (hy : 0 < y.mant) (hu : u.mant < 2 ^ 53) (h : x.value / y.value = u.value) :
    (f64Div x y).value = u.value :=
  f64OfRat_value_of_eq (by positivity) hu ((f64Div_fraction x y).trans h)

/-! ### What each width rounds -/

/-- Settles O37: both operands are below `2^53`, so their conversions are exact and the division rounds the quotient of the
words. -/
theorem cvt32RoundsTheExactQuotient : Obligations.Cvt32RoundsTheExactQuotient := fun y =>
  f64Div_eq_f64OfRat (f64OfNat_mant_pos (by norm_num [divisor])) (by norm_num)
    (by rw [f64OfNat_value_of_lt (by omega), f64OfNat_value_of_lt (by norm_num [divisor]), divisor])

/-- The divisor of E64 rounds up to `2^64` (spec/43_emit.md R151). -/
theorem f64OfNat_divisor64 : f64OfNat (divisor 64) = { mant := 2 ^ 52, exp := 12 } := by decide

/-- Settles O38: dividing by `2^64` only lowers the exponent by 64. -/
theorem cvt64ScalesTheRoundedInteger : Obligations.Cvt64ScalesTheRoundedInteger := by
  intro y
  have hscaled : F64.value { mant := (f64OfNat y.toNat).mant, exp := (f64OfNat y.toNat).exp - 64 } =
      (f64OfNat y.toNat).value / 2 ^ 64 := by
    rw [F64.value, F64.value, zpow_sub₀ two_ne_zero, mul_div_assoc]
    norm_cast
  have hdivisor : (f64OfNat (divisor 64)).value = 2 ^ 64 := by
    rw [f64OfNat_divisor64]; norm_num [F64.value]
  rw [← hscaled]
  refine f64Div_value_of_eq (f64OfNat_mant_pos (by norm_num [divisor])) (f64OfRat_mant_lt _ one_pos) ?_
  rw [hscaled, hdivisor]

/-- Settles O41: on E32 by the small numerators, on E64 by the order of the rounded integers. -/
theorem conversionIsMonotone : Obligations.ConversionIsMonotone := by
  constructor
  · intro y z h
    rw [cvt32RoundsTheExactQuotient, cvt32RoundsTheExactQuotient]
    exact f64OfRat_value_strictMono (by norm_num) h (by omega)
  · intro y z h
    rw [cvt64ScalesTheRoundedInteger, cvt64ScalesTheRoundedInteger]
    exact div_le_div_of_nonneg_right (f64OfNat_value_mono h) (by positivity)

/-! ### The range of the result -/

theorem cvt_zero (w : Nat) : cvt .castThenDivide 0#w = { mant := 0, exp := 0 } := by
  simp [cvt, f64OfNat, f64OfRat_zero, f64Div]

/-- The conversion of a word other than 0 has a significand of exactly 53 bits. -/
theorem cvt_mant_bounds {w : Nat} {y : BitVec w} (hy : y ≠ 0#w) :
    2 ^ 52 ≤ (cvt .castThenDivide y).mant ∧ (cvt .castThenDivide y).mant < 2 ^ 53 := by
  have hy' : 0 < y.toNat := Nat.pos_of_ne_zero fun h => hy (BitVec.eq_of_toNat_eq (by simpa using h))
  have hdivisor : 0 < divisor w := by have := y.isLt; simp only [divisor]; omega
  have hx := f64OfNat_mant_pos hy'
  have hd := f64OfNat_mant_pos hdivisor
  exact f64OfRat_mant_bounds (by positivity) (by positivity)

theorem cvt_value_eq_zero_iff {w : Nat} (y : BitVec w) : (cvt .castThenDivide y).value = 0 ↔ y = 0#w := by
  constructor
  · intro h
    by_contra hy
    have hpos := F64.value_pos (lt_of_lt_of_le (by norm_num) (cvt_mant_bounds hy).1)
    exact hpos.ne' h
  · rintro rfl
    simp [cvt_zero, F64.value]

theorem F64.value_one : F64.value { mant := 2 ^ 52, exp := -52 } = 1 := by norm_num [F64.value]

theorem cvt32_greatest : (cvt .castThenDivide 0xFFFFFFFF#32).value = 1 :=
  (congrArg F64.value (by decide)).trans F64.value_one

theorem cvt64_greatest : (cvt .castThenDivide 0xFFFFFFFFFFFFFFFF#64).value = 1 :=
  (congrArg F64.value (by decide)).trans F64.value_one

/-- `2^64 - 1024` is a tie, and goes to the even neighbour `2^64` (spec/43_emit.md R151). -/
theorem cvt64_least_one : (cvt .castThenDivide 0xFFFFFFFFFFFFFC00#64).value = 1 :=
  (congrArg F64.value (by decide)).trans F64.value_one

theorem cvt64_below_one : (cvt .castThenDivide 0xFFFFFFFFFFFFFBFF#64).value < 1 := by
  have hpred : cvt .castThenDivide 0xFFFFFFFFFFFFFBFF#64 = { mant := 2 ^ 53 - 1, exp := -53 } := by decide
  rw [hpred]; norm_num [F64.value]

theorem cvt32_value_mono {y z : Word32} (h : y.toNat ≤ z.toNat) :
    (cvt .castThenDivide y).value ≤ (cvt .castThenDivide z).value := by
  rcases Nat.lt_or_eq_of_le h with hlt | heq
  · exact (conversionIsMonotone.1 y z hlt).le
  · rw [BitVec.eq_of_toNat_eq heq]

theorem cvt32_value_le_one (y : Word32) : (cvt .castThenDivide y).value ≤ 1 :=
  (cvt32_value_mono (z := 0xFFFFFFFF#32) (by bv_omega)).trans cvt32_greatest.le

theorem cvt32_value_eq_one_iff (y : Word32) : (cvt .castThenDivide y).value = 1 ↔ y = 0xFFFFFFFF#32 := by
  constructor
  · intro h
    by_contra hy
    have hlt := conversionIsMonotone.1 y 0xFFFFFFFF#32 (by bv_omega)
    exact (hlt.trans_eq cvt32_greatest).ne h
  · rintro rfl
    exact cvt32_greatest

theorem cvt64_value_le_one (y : Word64) : (cvt .castThenDivide y).value ≤ 1 :=
  (conversionIsMonotone.2 y 0xFFFFFFFFFFFFFFFF#64 (by bv_omega)).trans cvt64_greatest.le

theorem cvt64_value_eq_one_iff (y : Word64) :
    (cvt .castThenDivide y).value = 1 ↔ 0xFFFFFFFFFFFFFC00 ≤ y.toNat := by
  constructor
  · intro h
    by_contra! hy
    have hle := conversionIsMonotone.2 y 0xFFFFFFFFFFFFFBFF#64 (Nat.le_of_lt_succ hy)
    exact (hle.trans_lt cvt64_below_one).ne h
  · intro hy
    refine (cvt64_value_le_one y).antisymm ?_
    rw [← cvt64_least_one]
    exact conversionIsMonotone.2 0xFFFFFFFFFFFFFC00#64 y hy

/-- Settles O39: the order of the results and the values at the ends. -/
theorem resultRange : Obligations.ResultRange :=
  ⟨fun y => ⟨F64.value_nonneg _, cvt32_value_le_one y, cvt_value_eq_zero_iff y, cvt32_value_eq_one_iff y⟩,
    fun y => ⟨F64.value_nonneg _, cvt64_value_le_one y, cvt_value_eq_zero_iff y, cvt64_value_eq_one_iff y⟩⟩

/-! ### The bit pattern -/

/-- The exponent of a number with 53 significant bits, from bounds on its value. -/
theorem F64.exp_bounds {x : F64} (hlo : 2 ^ 52 ≤ x.mant) (hhi : x.mant < 2 ^ 53) {l h : Int} (hl : (2 : Rat) ^ l ≤ x.value)
    (hh : x.value ≤ 2 ^ h) : l - 52 ≤ x.exp ∧ x.exp ≤ h - 52 := by
  have hpos : (0 : Rat) < 2 ^ x.exp := by positivity
  have hbelow : (2 : Rat) ^ (52 + x.exp) ≤ x.value := by
    rw [F64.value, zpow_add₀ two_ne_zero, zpow_ofNat]
    exact mul_le_mul_of_nonneg_right (mod_cast hlo) hpos.le
  have habove : x.value < (2 : Rat) ^ (53 + x.exp) := by
    rw [F64.value, zpow_add₀ two_ne_zero, zpow_ofNat]
    exact mul_lt_mul_of_pos_right (mod_cast hhi) hpos
  have hupper := (zpow_le_zpow_iff_right₀ one_lt_two).1 (hbelow.trans hh)
  have hlower := (zpow_lt_zpow_iff_right₀ one_lt_two).1 (hl.trans_lt habove)
  omega

/-- The fields of the pattern of a normal number (spec/00_scope.md R15). -/
theorem bits64_fields {x : F64} (hlo : 2 ^ 52 ≤ x.mant) (hhi : x.mant < 2 ^ 53) (hexp : -1074 ≤ x.exp) (hexp' : x.exp ≤ 971) :
    (bits64 x).getLsbD 63 = false ∧ ((bits64 x).extractLsb' 52 11).toNat = x.exp + 1075 ∧
      2 ^ 52 + ((bits64 x).extractLsb' 0 52).toNat = x.mant := by
  obtain ⟨e, he⟩ := Int.eq_ofNat_of_zero_le (show 0 ≤ x.exp + 1075 by omega)
  obtain ⟨f, hf⟩ := Nat.exists_eq_add_of_le hlo
  have hpattern : (bits64 x).toNat = e * 2 ^ 52 + f := by
    have hfield : (x.exp + 52 + 1023).toNat = e := by omega
    rw [bits64, if_neg (by omega), hfield, hf, Nat.add_sub_cancel_left, BitVec.toNat_ofNat]
    exact Nat.mod_eq_of_lt (by omega)
  refine ⟨?_, ?_, ?_⟩
  · rw [BitVec.getLsbD, hpattern, Nat.testBit_lt_two_pow (by omega)]
  · rw [BitVec.extractLsb'_toNat, hpattern, Nat.shiftRight_eq_div_pow]
    omega
  · rw [BitVec.extractLsb'_toNat, hpattern, Nat.shiftRight_zero]
    omega

theorem cvt32_value_ge {y : Word32} (hy : y ≠ 0#32) : (2 : Rat) ^ (-64 : Int) ≤ (cvt .castThenDivide y).value := by
  have hone : cvt .castThenDivide 1#32 = { mant := 2 ^ 52 + 2 ^ 20, exp := -84 } := by decide
  calc (2 : Rat) ^ (-64 : Int) ≤ (cvt .castThenDivide 1#32).value := by rw [hone]; norm_num [F64.value]
    _ ≤ (cvt .castThenDivide y).value := cvt32_value_mono (by bv_omega)

theorem cvt64_value_ge {y : Word64} (hy : y ≠ 0#64) : (2 : Rat) ^ (-64 : Int) ≤ (cvt .castThenDivide y).value := by
  have hone : cvt .castThenDivide 1#64 = { mant := 2 ^ 52, exp := -116 } := by decide
  calc (2 : Rat) ^ (-64 : Int) ≤ (cvt .castThenDivide 1#64).value := by rw [hone]; norm_num [F64.value]
    _ ≤ (cvt .castThenDivide y).value := conversionIsMonotone.2 1#64 y (by bv_omega)

/-- A result other than 0 lies in `[2^-64, 1]` (spec/43_emit.md R153). -/
theorem cvt_value_mem {w : Nat} (hw : w = 32 ∨ w = 64) {y : BitVec w} (hy : y ≠ 0#w) :
    (2 : Rat) ^ (-64 : Int) ≤ (cvt .castThenDivide y).value ∧ (cvt .castThenDivide y).value ≤ 2 ^ (0 : Int) := by
  rcases hw with rfl | rfl
  · exact ⟨cvt32_value_ge hy, by simpa using cvt32_value_le_one y⟩
  · exact ⟨cvt64_value_ge hy, by simpa using cvt64_value_le_one y⟩

/-- Settles O40: the value of a result other than 0 bounds its exponent, so the fields of its pattern are those of a normal
number. -/
theorem resultPatternIsNormal : Obligations.ResultPatternIsNormal := by
  intro w hw y
  refine ⟨?_, fun hy => ?_⟩
  · rintro rfl
    rw [cvt_zero]
    rfl
  · obtain ⟨hlo, hhi⟩ := cvt_mant_bounds hy
    obtain ⟨hge, hle⟩ := cvt_value_mem hw hy
    obtain ⟨hexp, hexp'⟩ := F64.exp_bounds hlo hhi hge hle
    obtain ⟨hsign, hfield, hfraction⟩ := bits64_fields hlo hhi (by omega) (by omega)
    refine ⟨hsign, by omega, by omega, ?_⟩
    rw [hfield, hfraction, add_sub_cancel_right, F64.value]

end Sys2Proof.Machine
end

section
/-! The obligations on emission (spec/43_emit.md R145 to R149). -/

namespace Sys2Proof.Machine

/-- `EMIT32` under its precondition, for the configuration that `exec` runs. -/
theorem exec_emit32_eq {s : State} (h : s.e32.idx.toNat < 624) : exec .emit32 s = .next (respond
    (emitResponse Config.params (memRead s.e32.mt s.e32.idx.toNat) (temper Config.e32 (memRead s.e32.mt s.e32.idx.toNat)))
    { s with e32 := emitEngine Config.e32 s.e32 }) := emit32_next Config.params h

/-- `EMIT64` under its precondition, for the configuration that `exec` runs. -/
theorem exec_emit64_eq {s : State} (h : s.e64.idx.toNat < 312) : exec .emit64 s = .next (respond
    (emitResponse Config.params (memRead s.e64.mt s.e64.idx.toNat) (temper Config.e64 (memRead s.e64.mt s.e64.idx.toNat)))
    { s with e64 := emitEngine Config.e64 s.e64 }) := emit64_next Config.params h

/-- Settles O31: the statement's tempered word is `temper` with the constants of the record. -/
theorem emit32Result : Obligations.Emit32Result := fun _ h =>
  ⟨exec_emit32_eq h, emitEngine_idx_toNat sized_e32 h⟩

/-- Settles O32: as for E32; the handle has the port's width already. -/
theorem emit64Result : Obligations.Emit64Result := fun _ h =>
  ⟨(exec_emit64_eq h).trans (by rw [emitResponse_word64]; rfl), emitEngine_idx_toNat sized_e64 h⟩

/-- Settles O33, by the cursor that an emission leaves. -/
theorem emissionAdvancesCursor : Obligations.EmissionAdvancesCursor :=
  ⟨fun _ h => ⟨_, exec_emit32_eq h, emitEngine_idx_toNat sized_e32 h, emitEngine_idx_mem sized_e32 h⟩,
    fun _ h => ⟨_, exec_emit64_eq h, emitEngine_idx_toNat sized_e64 h, emitEngine_idx_mem sized_e64 h⟩⟩

/-- Settles O34, by the test of the precondition. -/
theorem emitStopsWithoutReadyWord : Obligations.EmitStopsWithoutReadyWord :=
  ⟨fun _ => emit32_stops Config.params, fun _ => emit64_stops Config.params⟩

end Sys2Proof.Machine
end

section
/-! The one fault (spec/60_exceptions.md R170 to R178): which instructions answer it, that it changes no engine, and that the
answers to commands depend on the engines alone. -/

namespace Sys2Proof.Machine

/-! ### Which instructions fault -/

/-- Settles O42: the state that `takeFault` makes, field by field. -/
theorem reservedCommandFaults : Obligations.ReservedCommandFaults := fun _ _ _ _ => ⟨rfl, rfl⟩

theorem emit32_delivers {p : Params} {s t : State} (h : emit32 p s = .next t) : ∃ r, Delivers s t .noFault r := by
  obtain ⟨-, rfl⟩ := emit32_cases h
  exact ⟨_, rfl, rfl⟩

theorem emit64_delivers {p : Params} {s t : State} (h : emit64 p s = .next t) : ∃ r, Delivers s t .noFault r := by
  obtain ⟨-, rfl⟩ := emit64_cases h
  exact ⟨_, rfl, rfl⟩

/-- The fault field of an instruction's response, if the instruction answers at all (spec/30_encoding.md R73, R75, R78). -/
def answerFault : Instr → Option RspFault
  | .draw32 | .draw64 | .emit32 | .emit64 => some .noFault
  | .reserved w => some (.widthUnsupported w)
  | .seed32 | .regen32 | .seed64 | .regen64 | .idle _ => none

/-- RESERVED alone answers the fault, with its own width. -/
theorem answerFault_eq_widthUnsupported (i : Instr) (w : Byte) :
    answerFault i = some (.widthUnsupported w) ↔ i = .reserved w := by
  cases i <;> simp [answerFault]

/-- What an instruction does to the responses: nothing, or one more with its fault field. -/
theorem exec_answers {i : Instr} {s t : State} (h : exec i s = .next t) :
    (answerFault i = none ∧ t.responses = s.responses) ∨ ∃ f r, answerFault i = some f ∧ Delivers s t f r := by
  cases i with
  | draw32 => exact .inr ⟨_, (draw32_delivers h).imp fun _ hr => ⟨rfl, hr⟩⟩
  | draw64 => exact .inr ⟨_, (draw64_delivers h).imp fun _ hr => ⟨rfl, hr⟩⟩
  | emit32 => exact .inr ⟨_, (emit32_delivers h).imp fun _ hr => ⟨rfl, hr⟩⟩
  | emit64 => exact .inr ⟨_, (emit64_delivers h).imp fun _ hr => ⟨rfl, hr⟩⟩
  | reserved w => cases h; exact .inr ⟨_, _, rfl, rfl, rfl⟩
  | idle sel => cases h; exact .inl ⟨rfl, rfl⟩
  | seed32 | regen32 | seed64 | regen64 => injection h with h; subst h; exact .inl ⟨rfl, by simp⟩

/-- The widths of spec/60_exceptions.md R170 as command bytes. -/
theorem supportedWidth_iff (w : Byte) : w.toNat = 32 ∨ w.toNat = 64 ↔ w = 0x20#8 ∨ w = 0x40#8 := by
  simp [← BitVec.toNat_inj]

/-- Settles O43, by the fault field of each instruction's response and that of the response to a command byte. -/
theorem onlyReservedWidthsFault : Obligations.OnlyReservedWidthsFault := by
  refine ⟨fun i s t hexec => ?_, fun s w h hrest => ?_⟩
  · rcases exec_answers hexec with ⟨hnone, hresponses⟩ | ⟨f, r, hsome, hresponses, hfault⟩
    · refine .inl ⟨hresponses, fun w hi => ?_⟩
      rw [(answerFault_eq_widthUnsupported i w).2 hi] at hnone
      cases hnone
    · refine .inr ⟨r, hresponses, fun w => ?_⟩
      rw [← answerFault_eq_widthUnsupported, hsome, hfault, Option.some_inj]
  · obtain ⟨t, r, hpresent, -, hresponses, hfault⟩ := present_atRest (w, h) hrest
    refine ⟨t, r, hpresent, hresponses, ?_⟩
    rw [← not_or, supportedWidth_iff, hfault, commandFault]
    split_ifs with hw <;> simp [hw]

/-! ### A fault leaves no trace -/

/-- A resting machine answers an unsupported width by taking the fault, and nothing else. -/
theorem present_reserved {s : State} (hidle : s.phase = .idle) {c : Byte × Word64} (hne32 : c.1 ≠ 0x20#8)
    (hne64 : c.1 ≠ 0x40#8) : present s c = .next (takeFault c.1 (acceptCommand c.1 c.2 s.host s)) := by
  rw [present, hostMove_command_idle s c.1 c.2 hidle, decodeCommand_of_ne hne32 hne64]
  rfl

/-- Both states are at rest with the same engines: all that the answers to later commands depend on. -/
structure RestAlike (s s' : State) : Prop where
  rest : AtRest s
  rest' : AtRest s'
  e32 : s.e32 = s'.e32
  e64 : s.e64 = s'.e64

namespace Lane

variable {w cw : Nat} (L : Lane w cw) {s s' t t' : State} {c : Byte × Word64}

/-- A draw leaves the engine, and shows the host a response, as the engine and the handle determine them. -/
theorem present_draw_congr (hrest : AtRest s) (hrest' : AtRest s') (hengine : L.engine s = L.engine s')
    (h : present s c = .next t) (h' : present s' c = .next t') (hc : c.1 = L.width) :
    L.engine t = L.engine t' ∧ t.responses.head? = t'.responses.head? := by
  obtain ⟨b, handle⟩ := c
  obtain rfl : b = L.width := hc
  obtain ⟨u, hu, hdrawn, hresponse⟩ := L.present_draw hrest handle
  obtain ⟨u', hu', hdrawn', hresponse'⟩ := L.present_draw hrest' handle
  obtain rfl : u = t := by rw [hu] at h; injection h
  obtain rfl : u' = t' := by rw [hu'] at h'; injection h'
  have hsame : L.engine u = L.engine u' := by rw [hdrawn, hdrawn', hengine]
  exact ⟨hsame, by rw [hresponse, hresponse', hsame]⟩

/-- Any command leaves an engine as the engine and the command determine it. -/
theorem present_engine_congr (hrest : AtRest s) (hrest' : AtRest s') (hengine : L.engine s = L.engine s')
    (h : present s c = .next t) (h' : present s' c = .next t') : L.engine t = L.engine t' := by
  by_cases hc : c.1 = L.width
  · exact (L.present_draw_congr hrest hrest' hengine h h' hc).1
  · rw [L.present_other h hc, L.present_other h' hc, hengine]

end Lane

/-- Resting machines with the same engines answer a command alike, and rest with the same engines again. -/
theorem RestAlike.present_alike {s s' : State} (ha : RestAlike s s') (c : Byte × Word64) :
    ∃ t t', present s c = .next t ∧ present s' c = .next t' ∧ RestAlike t t' ∧
      t.responses.head? = t'.responses.head? := by
  obtain ⟨hrest, hrest', he32, he64⟩ := ha
  obtain ⟨t, -, h, hrestT, -⟩ := present_atRest c hrest
  obtain ⟨t', -, h', hrestT', -⟩ := present_atRest c hrest'
  refine ⟨t, t', h, h', ⟨hrestT, hrestT', lane32.present_engine_congr hrest hrest' he32 h h',
    lane64.present_engine_congr hrest hrest' he64 h h'⟩, ?_⟩
  rcases decodeCommand_width_cases c.1 with ⟨hc, -⟩ | ⟨hc, -⟩ | ⟨⟨hne32, hne64⟩, -⟩
  · exact (lane32.present_draw_congr hrest hrest' he32 h h' hc).2
  · exact (lane64.present_draw_congr hrest hrest' he64 h h' hc).2
  · rw [present_reserved hrest.1 hne32 hne64] at h
    rw [present_reserved hrest'.1 hne32 hne64] at h'
    cases h
    cases h'
    rfl

/-- The observable outcome of a run of commands depends on the engines alone. -/
theorem RestAlike.outputs_eq {s s' : State} (ha : RestAlike s s') (cs : List (Byte × Word64)) :
    outputs s cs = outputs s' cs := by
  induction cs generalizing s s' with
  | nil => rfl
  | cons c cs ih =>
    obtain ⟨t, t', h, h', ha', hresponse⟩ := ha.present_alike c
    rw [outputs_cons_of_next h, outputs_cons_of_next h', hresponse, ih ha']

/-- Settles O44: taking the fault leaves a resting machine at rest with the same engines. -/
theorem faultLeavesNoTrace : Obligations.FaultLeavesNoTrace := by
  intro s w h cs hrest hne32 hne64
  have hpresent := present_reserved hrest.1 (c := (w, h)) hne32 hne64
  have halike : RestAlike (takeFault w (acceptCommand w h s.host s)) s := ⟨hrest, hrest, rfl, rfl⟩
  rw [outputs_cons_of_next hpresent, halike.outputs_eq]
  rfl

end Sys2Proof.Machine
end

section
/-! That the machine goes on (spec/60_exceptions.md R170, R174, spec/20_memory.md R55): from a legal state every
micro-operation completes, and so does every step. -/

namespace Sys2Proof.Machine

/-- In a legal state the micro-operation of `sel` and `phase` completes: in EMIT the cursor meets the precondition of
spec/43_emit.md R145, and the other phases have none. -/
theorem exec_uopInstr_next {s : State} (hinv : Inv s) : ∃ u, exec (uopInstr s.sel s.phase) s = .next u := by
  obtain ⟨-, -, hcursors⟩ := hinv
  cases hphase : s.phase with
  | idle => exact ⟨s, rfl⟩
  | seed => cases s.sel <;> exact ⟨_, rfl⟩
  | regen => cases s.sel <;> exact ⟨_, rfl⟩
  | emit =>
    rw [hphase] at hcursors
    cases hsel : s.sel with
    | e32 => rw [hsel] at hcursors; exact ⟨_, emit32_next Config.params hcursors.1⟩
    | e64 => rw [hsel] at hcursors; exact ⟨_, emit64_next Config.params hcursors.2⟩

theorem step_microOp_next {s : State} (hinv : Inv s) (hfetch : fetch s = .microOp (uopInstr s.sel s.phase) s) :
    ∃ t, step s = .next t := by
  obtain ⟨u, hexec⟩ := exec_uopInstr_next hinv
  have hstep : step s = advancePhase Config.params (exec (uopInstr s.sel s.phase) s) := by rw [step, hfetch]
  exact ⟨_, by rw [hstep, hexec, advancePhase_next]⟩

/-- Settles O47, by what the step finds: a reset, a command of a resting machine, or a micro-operation. -/
theorem legalStatesNeverStop : Obligations.LegalStatesNeverStop := by
  intro s hinv
  cases hhost : s.host with
  | nil => exact step_microOp_next hinv (fetch_no_event s hhost)
  | cons event rest =>
    cases event with
    | reset => exact ⟨_, step_reset_head s rest hhost⟩
    | command width handle =>
      by_cases hidle : s.phase = .idle
      · obtain ⟨⟨-, hidx32, -⟩, ⟨-, hidx64, -⟩, -⟩ := hinv
        rw [step, fetch_command s width handle rest hidle hhost]
        exact exec_decodeCommand_next (s := acceptCommand width handle rest s) width hidx32 hidx64
      · exact step_microOp_next hinv (fetch_busy s width handle rest hidle hhost)

end Sys2Proof.Machine
end

section
/-! Reset and overlap (spec/70_reset_and_hazards.md): a resting machine waits (R208), the reset event gives the values of R33 in
every phase (R195, R196), and a block inside a command accepts no other (R199). -/

namespace Sys2Proof.Machine

/-- Without an event the step is the micro-operation of `sel` and `phase`, here IDLE, after which the phase is IDLE again. -/
theorem step_idle_no_event {s : State} (hidle : s.phase = .idle) (hhost : s.host = []) : step s = .next s := by
  have hexec : exec (uopInstr s.sel s.phase) s = .next s := by rw [hidle]; rfl
  have hphase : nextPhase Config.params s.phase = s.phase := by rw [hidle]; rfl
  simp only [step, fetch_no_event s hhost, hexec, advancePhase_next, hphase]

/-- Settles O7: the step of a resting machine with no event, and the arm of `exec` for IDLE. -/
theorem restingMachineWaits : Obligations.RestingMachineWaits :=
  ⟨fun _ => step_idle_no_event, fun _ _ => rfl⟩

/-- Settles O8: the step is the reset event, which gives the block the values of `State.reset` and keeps the responses. -/
theorem resetEventEntersRestingState : Obligations.ResetEventEntersRestingState := by
  intro s rest hhost
  obtain ⟨hidx32, hidx64, hphase, hcount32, hcount64, hmt32, hmt64⟩ := resetStateValues
  exact ⟨resetEvent { s with host := rest }, step_reset_head s rest hhost, hidx32, hidx64, hmt32, hmt64, hphase, hcount32,
    hcount64, rfl⟩

/-- A draw line is no move on a block inside a command. -/
theorem runLine_draw_busy {hb : HostedBlock} (w : Byte) (var : Nat) (hbusy : hb.block.phase ≠ .idle) :
    runLine hb (.draw w var) = .refused .commandInFlight := by
  rw [runLine, lineEvent, hostMove_command_busy hb.block w _ hbusy]

/-- A step that runs the micro-operation of `sel` and `phase` leaves the port registers and the host's events alone. -/
theorem step_microOp_samePorts {s t : State} (hfetch : fetch s = .microOp (uopInstr s.sel s.phase) s)
    (hstep : step s = .next t) : SamePorts s t := by
  obtain ⟨u, hexec, rfl⟩ := step_microOp_cases hfetch hstep
  obtain ⟨hwidth, hhandle, hhost⟩ := exec_samePorts hexec
  exact ⟨hwidth, hhandle, hhost⟩

/-- Settles O54: the host's move is refused, and a step inside a command is a micro-operation. -/
theorem busyBlockAcceptsNoCommand : Obligations.BusyBlockAcceptsNoCommand := by
  refine ⟨fun s c => hostMove_command_busy s c.1 c.2, fun _ => runLine_draw_busy, fun s t w h rest hbusy hhost hstep => ?_⟩
  obtain ⟨hwidth, hhandle, hkept⟩ := step_microOp_samePorts (fetch_busy s w h rest hbusy hhost) hstep
  exact ⟨hkept, hwidth, hhandle⟩

end Sys2Proof.Machine
end
